-- ==== Sys2Proof/Word.lean ====
section
/-!
DEFINITION. The word types of the block (00_scope.md R7, R14, R15): every value is an unsigned bit vector of a stated width,
and addition and multiplication of words wrap.
-/

namespace Sys2Proof

/-- An 8-bit byte, the addressable unit of the input window (R42). -/
abbrev Byte := BitVec 8

/-- A 64-bit word: accumulator, key, slice length, ordering key, digest (R7, R13). -/
abbrev Word := BitVec 64

/-- The number of slots the 4-bit slot fields of a command word can name (R61); the block has `NSESS` of them (R11). -/
abbrev maxSlots : Nat := 16

/-- A slot number as a 4-bit field of the command word holds it (R61). -/
abbrev Slot := Fin maxSlots

end Sys2Proof
end

