-- ==== Sys2Proof/Config.lean ====
section
/-!
DEFINITION. What one implementation fixes (00_scope.md R8 to R11) and the free values.
The three open parameters are a record that the State carries unchanged (log entries 1 and 2), so that a statement about
every state is a statement about every legal `M`, `INC` and `NSESS`.
-/

namespace Sys2Proof

/-- The rotation amount `R`, fixed by the source and no parameter (R8, D11). -/
def Config.rotation : Nat := 23

/-- The open parameters of the block, fixed for its life (R9, R10, R11; U5, U12). -/
structure Params where
  /-- `M`, the multiplier (R9). -/
  mult : Word
  /-- `INC`, the increment of the ordering key (R10). -/
  inc : Word
  /-- `NSESS`, the number of accumulator slots (R11). -/
  nsess : Nat
deriving DecidableEq, Repr

/-- The constraints the spec puts on the parameters: `M` odd (R9), `INC` not 0 (R10), `1 <= NSESS <= 16` (R11). -/
abbrev Params.Legal (p : Params) : Prop :=
  p.mult.getLsbD 0 = true ∧ p.inc ≠ 0 ∧ 1 ≤ p.nsess ∧ p.nsess ≤ maxSlots

/-- Parameter set DEF: the spec's defaults. PRESUMED: the spec marks the values of `M` and `INC` as general knowledge
(R9, R10, R11, G1; log entries 1 and 2). -/
def Params.default : Params := ⟨0x5851F42D4C957F2D, 0x14057B7EF767814F, 2⟩

/-- Parameter set TOY of 95_test_vectors.md section 0. -/
def Params.toy : Params := ⟨1, 1, 2⟩

/-- Parameter set P3 of 95_test_vectors.md section 0. -/
def Params.p3 : Params := ⟨3, 5, 2⟩

/-- The free values: what a register holds whose value after reset the spec calls unspecified (R34, R210; U6, U9; log entry 3).
Nothing in Lean can evaluate it. -/
opaque Config.freeWord : Nat → Word

/-- How many free values one reset takes: one per slot, and `len`, `pos`, `rem`, `key`. -/
def Config.freePerReset : Nat := 20

end Sys2Proof
end

