-- ==== Sys2Proof/Syntax.lean ====
section
/-!
DEFINITION. The commands of the block (30_encoding.md R60 to R64, R81) and the words that carry one.
-/

namespace Sys2Proof

/-- A command of the block, one constructor per row of R64; the operands are those of the row's format (R62). -/
inductive Instr where
  /-- INIT, format K (R110). -/
  | init (sd : Slot) (key0 key1 : Word)
  /-- WU8, format V8 (R121). -/
  | wu8 (sd : Slot) (v : BitVec 8)
  /-- WU16, format V16 (R122). -/
  | wu16 (sd : Slot) (v : BitVec 16)
  /-- WU32, format V32 (R123). -/
  | wu32 (sd : Slot) (v : BitVec 32)
  /-- WU64, format V64 (R124). -/
  | wu64 (sd : Slot) (v : BitVec 64)
  /-- WU128, format V128, the value split into its low and high word (R125, D9). -/
  | wu128 (sd : Slot) (lo hi : Word)
  /-- WRITE, format L (R140); the bytes are in the input window (R42). -/
  | write (sd : Slot) (len : Word)
  /-- FINISH, format N (R180). -/
  | finish (sd : Slot)
  /-- COPY, format N (R114). -/
  | copy (sd ss : Slot)
deriving DecidableEq, Repr

/-- The operations of R64. -/
inductive Opcode where
  | init | wu8 | wu16 | wu32 | wu64 | wu128 | write | finish | copy
deriving DecidableEq, Repr

/-- The operand formats of R62. -/
inductive Format where
  | k | v8 | v16 | v32 | v64 | v128 | l | n
deriving DecidableEq, Repr

/-- The two words of a command: the command word `CW` and the operand `OPND` (R60). -/
structure Words where
  cw : BitVec 16
  opnd : BitVec 128
deriving DecidableEq, Repr

/-- The operation of a command. -/
def Instr.opcode : Instr → Opcode
  | .init _ _ _ => .init
  | .wu8 _ _ => .wu8
  | .wu16 _ _ => .wu16
  | .wu32 _ _ => .wu32
  | .wu64 _ _ => .wu64
  | .wu128 _ _ _ => .wu128
  | .write _ _ => .write
  | .finish _ => .finish
  | .copy _ _ => .copy

/-- `sd`: the slot a command works on (R61). -/
def Instr.dest : Instr → Slot
  | .init sd _ _ => sd
  | .wu8 sd _ => sd
  | .wu16 sd _ => sd
  | .wu32 sd _ => sd
  | .wu64 sd _ => sd
  | .wu128 sd _ _ => sd
  | .write sd _ => sd
  | .finish sd => sd
  | .copy sd _ => sd

/-- The slot whose session a command needs (R192): the source slot of COPY, none for INIT, `sd` for every other command. -/
def Instr.needs : Instr → Option Slot
  | .init _ _ _ => none
  | .wu8 sd _ => some sd
  | .wu16 sd _ => some sd
  | .wu32 sd _ => some sd
  | .wu64 sd _ => some sd
  | .wu128 sd _ _ => some sd
  | .write sd _ => some sd
  | .finish sd => some sd
  | .copy _ ss => some ss

/-- The pseudo-instruction WUSIZE is WU64 (R81, R126). -/
def Instr.wusize (sd : Slot) (v : Word) : Instr := .wu64 sd v

/-- The pseudo-instruction DUP is COPY (R81). -/
def Instr.dup (sd ss : Slot) : Instr := .copy sd ss

end Sys2Proof
end

