-- ==== Sys2Proof/WellFormed.lean ====
section
/-!
DEFINITION. The one check a command's syntax must pass beyond its types: its slots exist (30_encoding.md R68).
Operand values are never illegal (R70).
-/

namespace Sys2Proof

/-- Slot `s` is one of the block's `nsess` slots (R11, R68). -/
def Slot.inRange (nsess : Nat) (s : Slot) : Bool := decide (s.val < nsess)

/-- Every slot the command names is one of the block's `nsess` slots (R68). -/
def Instr.wf (nsess : Nat) : Instr → Bool
  | .init sd _ _ => Slot.inRange nsess sd
  | .wu8 sd _ => Slot.inRange nsess sd
  | .wu16 sd _ => Slot.inRange nsess sd
  | .wu32 sd _ => Slot.inRange nsess sd
  | .wu64 sd _ => Slot.inRange nsess sd
  | .wu128 sd _ _ => Slot.inRange nsess sd
  | .write sd _ => Slot.inRange nsess sd
  | .finish sd => Slot.inRange nsess sd
  | .copy sd ss => Slot.inRange nsess sd && Slot.inRange nsess ss

end Sys2Proof
end

