-- ==== Sys2Proof/Decode.lean ====
section
/-!
DEFINITION. Decoding and encoding of command words (30_encoding.md R61 to R70).
`decode` is total on any two words and rejects by the name of the cause (R191 (a) to (e)).
It looks at `CW` and `NSESS` to decide legality, and never at `OPND` (R65).
-/

namespace Sys2Proof

/-- Why a command word is illegal: the causes (a) to (e) of R191. They share one status code (R194). -/
inductive Illegal where
  /-- (a) `op` is 0x0 or 0xA to 0xF (R66). -/
  | reservedOp
  /-- (b) `CW[3:0]` is not 0 (R67). -/
  | reservedBits
  /-- (c) `CW[7:4]` is not 0 in a command other than COPY (R67). -/
  | sourceBits
  /-- (d) `sd` is no slot of the block (R68). -/
  | slotRange
  /-- (e) `ss` of COPY is no slot of the block (R68). -/
  | sourceRange
deriving DecidableEq, Repr

/-! ## The table of R64 -/

/-- One row of R64: a command word `w` selects it when `(w & mask) == pattern`. -/
structure OpRow where
  op : Opcode
  mnemonic : String
  format : Format
  pattern : BitVec 16
  mask : BitVec 16
deriving DecidableEq, Repr

/-- The table of R64, in its order. -/
def opcodeTable : List OpRow :=
  [⟨.init, "INIT", .k, 0x1000, 0xF0FF⟩,
   ⟨.wu8, "WU8", .v8, 0x2000, 0xF0FF⟩,
   ⟨.wu16, "WU16", .v16, 0x3000, 0xF0FF⟩,
   ⟨.wu32, "WU32", .v32, 0x4000, 0xF0FF⟩,
   ⟨.wu64, "WU64", .v64, 0x5000, 0xF0FF⟩,
   ⟨.wu128, "WU128", .v128, 0x6000, 0xF0FF⟩,
   ⟨.write, "WRITE", .l, 0x7000, 0xF0FF⟩,
   ⟨.finish, "FINISH", .n, 0x8000, 0xF0FF⟩,
   ⟨.copy, "COPY", .n, 0x9000, 0xF00F⟩]

/-- The row selects the command word (R64). -/
def OpRow.selects (r : OpRow) (cw : BitVec 16) : Bool := decide (cw &&& r.mask = r.pattern)

/-! ## Fields (R61, R62) -/

/-- `op`, the operation code. -/
def opField (cw : BitVec 16) : BitVec 4 := cw.extractLsb' 12 4

/-- `sd`, the destination slot. -/
def sdField (cw : BitVec 16) : Slot := (cw.extractLsb' 8 4).toFin

/-- `ss`, the source slot of COPY. -/
def ssField (cw : BitVec 16) : Slot := (cw.extractLsb' 4 4).toFin

/-- `rsv`, the reserved bits. -/
def rsvField (cw : BitVec 16) : BitVec 4 := cw.extractLsb' 0 4

/-- The low word of the operand, `OPND[63:0]`. -/
def opndLow (opnd : BitVec 128) : Word := opnd.extractLsb' 0 64

/-- The high word of the operand, `OPND[127:64]`. -/
def opndHigh (opnd : BitVec 128) : Word := opnd.extractLsb' 64 64

/-- The operation an operation code selects; none for the reserved codes (R64, R66). -/
def Opcode.ofCode (op : BitVec 4) : Option Opcode :=
  match op.toNat with
  | 1 => some .init
  | 2 => some .wu8
  | 3 => some .wu16
  | 4 => some .wu32
  | 5 => some .wu64
  | 6 => some .wu128
  | 7 => some .write
  | 8 => some .finish
  | 9 => some .copy
  | _ => none

/-- The operation code of an operation (R64). -/
def Opcode.code : Opcode → BitVec 4
  | .init => 0x1
  | .wu8 => 0x2
  | .wu16 => 0x3
  | .wu32 => 0x4
  | .wu64 => 0x5
  | .wu128 => 0x6
  | .write => 0x7
  | .finish => 0x8
  | .copy => 0x9

/-- The operand format of an operation (R62, R64). -/
def Opcode.format : Opcode → Format
  | .init => .k
  | .wu8 => .v8
  | .wu16 => .v16
  | .wu32 => .v32
  | .wu64 => .v64
  | .wu128 => .v128
  | .write => .l
  | .finish => .n
  | .copy => .n

/-- How many low bits of `OPND` a format reads (R62); it ignores the rest (R63). -/
def Format.readBits : Format → Nat
  | .k => 128
  | .v8 => 8
  | .v16 => 16
  | .v32 => 32
  | .v64 => 64
  | .v128 => 128
  | .l => 64
  | .n => 0

/-- `OPND` with the bits that the format does not read set to 0 (R62, R63). -/
def Format.readPart (f : Format) (opnd : BitVec 128) : BitVec 128 := BitVec.ofNat 128 (opnd.toNat % 2 ^ f.readBits)

/-! ## Decoding -/

/-- The command with the given operation, its operands taken verbatim from `OPND` (R62, R63). -/
def assemble (op : Opcode) (sd ss : Slot) (opnd : BitVec 128) : Instr :=
  match op with
  | .init => .init sd (opndLow opnd) (opndHigh opnd)
  | .wu8 => .wu8 sd (opnd.extractLsb' 0 8)
  | .wu16 => .wu16 sd (opnd.extractLsb' 0 16)
  | .wu32 => .wu32 sd (opnd.extractLsb' 0 32)
  | .wu64 => .wu64 sd (opndLow opnd)
  | .wu128 => .wu128 sd (opndLow opnd) (opndHigh opnd)
  | .write => .write sd (opndLow opnd)
  | .finish => .finish sd
  | .copy => .copy sd ss

/-- What is illegal about a command word whose operation is `op`, if anything: R191 (b) to (e). -/
def illegality (nsess : Nat) (op : Opcode) (cw : BitVec 16) : Option Illegal :=
  if rsvField cw ≠ 0 then some .reservedBits
  else if op ≠ .copy ∧ ssField cw ≠ 0 then some .sourceBits
  else if Slot.inRange nsess (sdField cw) = false then some .slotRange
  else if op = .copy ∧ Slot.inRange nsess (ssField cw) = false then some .sourceRange
  else none

/-- The command that the words carry on a block of `nsess` slots, or why the command word is illegal (R65, R191). -/
def decode (nsess : Nat) (w : Words) : Except Illegal Instr :=
  match Opcode.ofCode (opField w.cw) with
  | none => .error .reservedOp
  | some op =>
    match illegality nsess op w.cw with
    | some e => .error e
    | none => .ok (assemble op (sdField w.cw) (ssField w.cw) w.opnd)

/-! ## Encoding -/

/-- The source slot field of a command: `ss` of COPY, 0 in every other command (R61, R67). -/
def Instr.sourceField : Instr → Slot
  | .copy _ ss => ss
  | .init _ _ _ => 0
  | .wu8 _ _ => 0
  | .wu16 _ _ => 0
  | .wu32 _ _ => 0
  | .wu64 _ _ => 0
  | .wu128 _ _ _ => 0
  | .write _ _ => 0
  | .finish _ => 0

/-- The command word: `{op, sd, ss, rsv}` (R61, R64). -/
def encodeCW (i : Instr) : BitVec 16 :=
  i.opcode.code ++ BitVec.ofFin (w := 4) i.dest ++ BitVec.ofFin (w := 4) i.sourceField ++ (0 : BitVec 4)

/-- The operand, the bits that the format does not read written as 0 (R62, R80). -/
def encodeOpnd : Instr → BitVec 128
  | .init _ key0 key1 => key1 ++ key0
  | .wu8 _ v => v.setWidth 128
  | .wu16 _ v => v.setWidth 128
  | .wu32 _ v => v.setWidth 128
  | .wu64 _ v => v.setWidth 128
  | .wu128 _ lo hi => hi ++ lo
  | .write _ len => len.setWidth 128
  | .finish _ => 0
  | .copy _ _ => 0

/-- The words of a command (R60). -/
def encode (i : Instr) : Words := ⟨encodeCW i, encodeOpnd i⟩

/-! ## The opcode table's numbering -/

/-- The two words of a command whose bits are numbered as spec/opcode_table.json numbers them: bit 0 is the least
significant bit of `CW`, and `OPND` counts on from bit 16; every bit from `nbits` on is 0 (log entry 4). -/
def wordsOfTable (nbits w : Nat) : Words :=
  ⟨BitVec.ofNat 16 (w % 2 ^ nbits), BitVec.ofNat 128 (w % 2 ^ nbits / 2 ^ 16)⟩

/-- What the decoder reads from the bits `w`, on a block with the default number of slots (R11). -/
def decodeTableWord (nbits w : Nat) : Option Instr :=
  match decode Params.default.nsess (wordsOfTable nbits w) with
  | .ok i => some i
  | .error _ => none

end Sys2Proof
end

