-- ==== Sys2Proof/Machine/Mixer.lean ====
section
/-!
DEFINITION. The mixer datapath (40_mixer_primitives.md): the three pure functions every command is built from.
`m` is the multiplier `M`, `inc` the increment `INC`.
-/

namespace Sys2Proof.Machine

/-- `rotl64(a, n)` of R15. -/
def rotl64 (a : Word) (n : Nat) : Word := (a <<< n) ||| (a >>> (64 - n))

/-- `MIX(x)`: multiply, rotate by `R`, multiply (R91). -/
def mix (m x : Word) : Word := rotl64 (x * m) Config.rotation * m

/-- `UPDATE(a, w)` (R93). -/
def update (m a w : Word) : Word := mix m a ^^^ w

/-- `ORD(a, w, k)`: the new accumulator value and the next key (R95). -/
def ord (m inc a w k : Word) : Word × Word := (a ^^^ mix m (w ^^^ k), k + inc)

end Sys2Proof.Machine
end

