-- ==== Sys2Proof/Machine/State.lean ====
section
/-!
DEFINITION. The state of the block as plain data (10_state.md), the input window (20_memory.md R42), the host's next moves
(30_encoding.md R60, R71), the reasons a step can stop, and the state after reset (70_reset_and_hazards.md R210).
-/

namespace Sys2Proof.Machine

/-! ## Why a step can stop -/

/-- Reasons to stop with a fault. IllegalCommand and NotLive are none: they are answered in the response and the block
goes on (R193). -/
inductive Fault where
  /-- Raised by a micro-step of the slice processor that would read outside the window `0 .. len-1` (R42, R48). The rules
  never issue such a read (R48), so only states that no run reaches raise it. Safe. -/
  | windowOutOfRange
deriving DecidableEq, Repr

/-- Reasons to refuse. -/
inductive Refusal where
  /-- Raised by an arm of exec whose instruction has no meaning yet; no arm is left so. Safe. -/
  | notModelled (mnemonic : String)
deriving DecidableEq, Repr

/-! ## The input window -/

/-- The bytes of an input window (R42): the offsets that hold a byte other than 0, in rising order. An offset that is not
listed holds the byte 0x00 (log entry 6), so that every window of every length has exactly one such list. -/
abbrev Memory := List Host.Cell

/-- The canonical form: offsets strictly rising, no byte listed that an unlisted offset reads as. -/
def Memory.wf : Memory → Bool
  | [] => true
  | [c] => decide (c.2 ≠ 0)
  | c :: d :: m => decide (c.2 ≠ 0) && decide (c.1 < d.1) && Memory.wf (d :: m)

/-! ## Response, phases -/

/-- The `status` of a response (R28, R190); the code 3 is never produced. -/
inductive Status where
  /-- Code 0. -/
  | ok
  /-- Code 1 (R191). -/
  | illegalCommand
  /-- Code 2 (R192). -/
  | notLive
deriving DecidableEq, Repr

/-- A response `(status, data)` (R28). -/
structure Response where
  status : Status
  data : Word
deriving DecidableEq, Repr

/-- The phases of the slice processor (R24). -/
inductive Phase where
  | idle | lenadd | dispatch | b1 | b2 | b4 | seed | loop | front | tail | done
deriving DecidableEq, Repr

/-! ## The host -/

/-- A command as the host presents it: its two words and, for WRITE, its input window (R60). -/
structure Command where
  words : Words
  win : Memory
deriving DecidableEq, Repr

/-- One move of the host (R60, R71, R210; log entry 5). -/
inductive HostInput where
  /-- The host presents nothing. -/
  | tick
  /-- `rst` is asserted (R210). -/
  | reset
  /-- A command, taken as one atomic transition (R6, R60). -/
  | command (c : Command)
  /-- A command of which a WRITE is taken one micro-step at a time (R6, R150 to R161). -/
  | stepped (c : Command)
deriving DecidableEq, Repr

/-! ## The state -/

/-- The block's state, and what the host will do next. -/
structure State where
  /-- `M`, `INC`, `NSESS`: constants of the machine (R30, R34; log entries 1 and 2). -/
  cfg : Params
  /-- The accumulators `acc[s]` (R20); the first `NSESS` exist. -/
  acc : Vector Word maxSlots
  /-- The flags `live[s]` (R22); the first `NSESS` exist. -/
  live : Vector Bool maxSlots
  /-- The phase of the slice processor (R24). -/
  ph : Phase
  /-- The slice length of the current WRITE (R25). -/
  len : Word
  /-- The offset of the first byte the bulk loop has not consumed (R25). -/
  pos : Word
  /-- The number of bytes from `pos` to the end of the slice (R25). -/
  rem : Word
  /-- The ordering key of the bulk path (R26). -/
  key : Word
  /-- The `sd` of the WRITE in progress, which the micro-steps' `acc[sd]` needs (R151 to R161; log entry 7). -/
  cur : Slot
  /-- The input window of the command last presented (R42), empty after reset (log entry 6). The block only reads it (R41). -/
  win : Memory
  /-- The response of the command just completed (R28). -/
  rsp : Response
  /-- The port `rsp_valid` (R71; log entry 8). -/
  rspValid : Bool
  /-- The model's own: what the host does next (log entry 5). -/
  inputs : List HostInput
  /-- The model's own: how many free values have been taken (log entry 3). -/
  free : Nat
deriving DecidableEq, Repr

/-- The accumulators after a reset that takes the free values from `k` on: unspecified (R34, R210). -/
def State.freeBank (k : Nat) : Vector Word maxSlots :=
  #v[Config.freeWord k, Config.freeWord (k + 1), Config.freeWord (k + 2), Config.freeWord (k + 3),
     Config.freeWord (k + 4), Config.freeWord (k + 5), Config.freeWord (k + 6), Config.freeWord (k + 7),
     Config.freeWord (k + 8), Config.freeWord (k + 9), Config.freeWord (k + 10), Config.freeWord (k + 11),
     Config.freeWord (k + 12), Config.freeWord (k + 13), Config.freeWord (k + 14), Config.freeWord (k + 15)]

/-- The state at power-on of a block with parameters `p`, the unspecified registers holding the free values from `k` on,
with the host's next moves `ins` (R34, R210). DESIGN CHOICE: the spec gives the window no value after reset, and the model
empties it (log entry 6); `cur` is 0 (log entry 7). -/
def State.powerOn (p : Params) (k : Nat) (ins : List HostInput) : State where
  cfg := p
  acc := State.freeBank k
  live := Vector.replicate maxSlots false
  ph := .idle
  len := Config.freeWord (k + 16)
  pos := Config.freeWord (k + 17)
  rem := Config.freeWord (k + 18)
  key := Config.freeWord (k + 19)
  cur := 0
  win := []
  rsp := ⟨.ok, 0⟩
  rspValid := false
  inputs := ins
  free := k + Config.freePerReset

/-- The machine right after reset, with the default parameters (R9, R10, R11) and a host that has presented nothing. -/
def State.reset : State := State.powerOn Params.default 0 []

end Sys2Proof.Machine
end

