-- ==== Sys2Proof/Machine/Operands.lean ====
section
/-!
DEFINITION. The operand forms: zero extension of the fixed-width values (42_fixed_width.md R120), reads of the input window
(20_memory.md R44) and the packed words of the short bands (43_slice_write.md R144, R145).
-/

namespace Sys2Proof.Machine

/-- `zext_64(v)` (R15, R63): no sign extension anywhere. -/
def zext64 {w : Nat} (v : BitVec w) : Word := v.setWidth 64

/-- `win(a)`: the byte at an offset of the window (R42); an offset that is not listed holds 0 (log entry 6). -/
def byteAt : Memory → Nat → Byte
  | [], _ => 0
  | c :: m, a => if c.1 = a then c.2 else byteAt m a

/-- `zext_64(MemRead(off, n))`, little-endian (R44, R45): byte `i` of the window lands in bits `8i+7 .. 8i`. -/
def memRead (m : Memory) (off : Word) : Nat → Word
  | 0 => 0
  | n + 1 => memRead m off n ||| (zext64 (byteAt m (off.toNat + n)) <<< (8 * n))

/-- `{last[15:0], first[15:0]}` zero-extended: the first window in the low half (R144, D8). -/
def pack16 (first last : Word) : Word := zext64 (last.extractLsb' 0 16 ++ first.extractLsb' 0 16)

/-- `{last[31:0], first[31:0]}`: the first window in the low half (R145, D8). -/
def pack32 (first last : Word) : Word := zext64 (last.extractLsb' 0 32 ++ first.extractLsb' 0 32)

/-- The word that band 1 absorbs (R143). -/
def band1Word (m : Memory) : Word := memRead m 0 1

/-- The word that band 2 absorbs (R144). -/
def band2Word (m : Memory) (len : Word) : Word := pack16 (memRead m 0 2) (memRead m (len - 2) 2)

/-- The word that band 4 absorbs (R145). -/
def band4Word (m : Memory) (len : Word) : Word := pack32 (memRead m 0 4) (memRead m (len - 4) 4)

/-- Set the byte at an offset of a window, keeping the canonical form. It is the host's: it makes the window that it will
present. The block never writes memory (R41). -/
def putByte (m : Memory) (a : Nat) (b : Byte) : Memory :=
  match m with
  | [] => if b = 0 then [] else [(a, b)]
  | c :: r =>
    if a < c.1 then (if b = 0 then c :: r else (a, b) :: c :: r)
    else if a = c.1 then (if b = 0 then r else (a, b) :: r)
    else c :: putByte r a b

/-- The window that holds the given bytes from offset `a` on. -/
def windowFrom (a : Nat) : List Byte → Memory
  | [] => []
  | b :: bs => putByte (windowFrom (a + 1) bs) a b

/-- The window of a slice: byte 0 is its first byte (R42). -/
def windowOf (bytes : List Byte) : Memory := windowFrom 0 bytes

end Sys2Proof.Machine
end

