-- ==== Sys2Proof/Machine/Flags.lean ====
section
/-!
DEFINITION. The only flags the block has, `live[s]` (10_state.md R22, R29), and the codes of the response status (R190).
There are no condition codes: overflow is recorded nowhere (R29).
-/

namespace Sys2Proof.Machine

/-- `live[s]` (R16, R22). -/
def isLive (sd : Slot) (s : State) : Bool := s.live[sd]

/-- `live[s] <- 1` (R22). -/
def setLive (sd : Slot) (s : State) : State := { s with live := s.live.set sd.val true sd.isLt }

/-- The 2-bit code of a status (R28, R190). -/
def statusCode : Status → BitVec 2
  | .ok => 0
  | .illegalCommand => 1
  | .notLive => 2

end Sys2Proof.Machine
end

