-- ==== Sys2Proof/Machine/Ops.lean ====
section
/-!
DEFINITION. The named operations that the commands share: the accumulators (10_state.md R20), the response (R28), the two
checks of every command and what a fault does (60_exceptions.md R190 to R194), and reset (70_reset_and_hazards.md R210).
`raise` is the block's whole exception entry (R193); there is no return from one (R198).
-/

namespace Sys2Proof.Machine

/-- What an operation answers. -/
abbrev Answer := Host.Outcome State Fault Refusal

/-- `acc[s]` (R16, R20). -/
def getAcc (sd : Slot) (s : State) : Word := s.acc[sd]

/-- `acc[s] <- v` (R16, R20). -/
def setAcc (sd : Slot) (v : Word) (s : State) : State := { s with acc := s.acc.set sd.val v sd.isLt }

/-- `rsp <- (status, data)`, the response of the command (R16, R28). -/
def respond (st : Status) (data : Word) (s : State) : State := { s with rsp := ⟨st, data⟩, rspValid := true }

/-- The command completes: `rsp <- (OK, data)` (R28). -/
def complete (data : Word) (s : State) : Answer := .next (respond .ok data s)

/-- `raise F`: the response is `(code of F, 0)`, no `acc`, no `live` flag and no hidden register changes, and the block
accepts the next command (R193). -/
def raise (st : Status) (s : State) : Answer := .next (respond st 0 s)

/-- The first check (R194): a command naming a slot the block lacks raises IllegalCommand (R68, R191 (d), (e)). -/
def onSlot (sd : Slot) (s : State) (body : Answer) : Answer :=
  if Slot.inRange s.cfg.nsess sd then body else raise .illegalCommand s

/-- The second check (R192, R194): a command reading a slot that holds no session raises NotLive; otherwise the body goes
on with the accumulator's value. -/
def onLive (sd : Slot) (s : State) (body : Word → Answer) : Answer :=
  if isLive sd s then body (getAcc sd s) else raise .notLive s

/-- Both checks on the slot a command works on, in their order (R194). -/
def onSession (sd : Slot) (s : State) (body : Word → Answer) : Answer := onSlot sd s (onLive sd s body)

/-- `acc[sd] <- v` and `rsp <- (OK, 0)`: the end of every fixed-width write (R121 to R125). -/
def storeAcc (sd : Slot) (v : Word) (s : State) : Answer := complete 0 (setAcc sd v s)

/-- Reset, at any time (R210, R211): every session is lost, the slice processor is idle, there is no response, and the
unspecified registers take fresh free values. The constants are unaffected (R34), and so is what the host does next. -/
def applyReset (s : State) : State := State.powerOn s.cfg s.free s.inputs

end Sys2Proof.Machine
end

