-- ==== Sys2Proof/Machine/FixedWidth.lean ====
section
/-!
DEFINITION. The fixed-width writes WU8, WU16, WU32, WU64, WU128 (42_fixed_width.md R120 to R125).
-/

namespace Sys2Proof.Machine

/-- Absorb one word: `acc[sd] <- UPDATE(acc[sd], w)`, `rsp <- (OK, 0)`, after both checks (R120). -/
def absorb (sd : Slot) (w : Word) (s : State) : Answer :=
  onSession sd s fun a => storeAcc sd (update s.cfg.mult a w) s

/-- WU8 (R121). -/
def execWu8 (sd : Slot) (v : BitVec 8) (s : State) : Answer := absorb sd (zext64 v) s

/-- WU16 (R122). -/
def execWu16 (sd : Slot) (v : BitVec 16) (s : State) : Answer := absorb sd (zext64 v) s

/-- WU32 (R123). -/
def execWu32 (sd : Slot) (v : BitVec 32) (s : State) : Answer := absorb sd (zext64 v) s

/-- WU64 (R124). -/
def execWu64 (sd : Slot) (v : BitVec 64) (s : State) : Answer := absorb sd v s

/-- WU128 (R125): the low word first, then the high word; the value between is never visible. -/
def execWu128 (sd : Slot) (lo hi : Word) (s : State) : Answer :=
  onSession sd s fun a => storeAcc sd (update s.cfg.mult (update s.cfg.mult a lo) hi) s

end Sys2Proof.Machine
end

