-- ==== Sys2Proof/Machine/Session.lean ====
section
/-!
DEFINITION. INIT and COPY (41_init_copy.md) and FINISH (44_finish.md).
-/

namespace Sys2Proof.Machine

/-- `key0 ^ rotl64(key1, R)`, the initial accumulator of a session (R110). -/
def initialAcc (key0 key1 : Word) : Word := key0 ^^^ rotl64 key1 Config.rotation

/-- INIT `sd, key0, key1` (R110): the slot need not be live, and an old session is discarded (D27). -/
def execInit (sd : Slot) (key0 key1 : Word) (s : State) : Answer :=
  onSlot sd s (complete 0 (setLive sd (setAcc sd (initialAcc key0 key1) s)))

/-- COPY `sd, ss` (R114): only the source must be live; the destination's old session is discarded. -/
def execCopy (sd ss : Slot) (s : State) : Answer :=
  onSlot sd s (onSession ss s fun a => complete 0 (setLive sd (setAcc sd a s)))

/-- FINISH `sd` (R180): the digest is `MIX(acc[sd])`, and no state is written. -/
def execFinish (sd : Slot) (s : State) : Answer := onSession sd s fun a => complete (mix s.cfg.mult a) s

end Sys2Proof.Machine
end

