-- ==== Sys2Proof/Machine/SliceWrite.lean ====
section
/-!
DEFINITION. WRITE as one atomic transition (43_slice_write.md R140 to R147).
-/

namespace Sys2Proof.Machine

/-- The working values of a WRITE: the accumulator and the registers `key`, `pos`, `rem` (R25, R26, R146). -/
structure SliceRegs where
  a : Word
  key : Word
  pos : Word
  rem : Word
deriving DecidableEq, Repr

/-- One `ORD` on the 8-byte window at `pos` (R146). -/
def ordAt (p : Params) (m : Memory) (r : SliceRegs) : SliceRegs :=
  let q := ord p.mult p.inc r.a (memRead m r.pos 8) r.key
  { r with a := q.1, key := q.2 }

/-- One iteration of the bulk loop (R146). -/
def loopBody (p : Params) (m : Memory) (r : SliceRegs) : SliceRegs :=
  { ordAt p m r with pos := r.pos + 8, rem := r.rem - 8 }

/-- `while rem > 16` (R146), at most `fuel` times; `len / 8` is enough (R147). -/
def bulkLoop (p : Params) (m : Memory) : Nat → SliceRegs → SliceRegs
  | 0, r => r
  | fuel + 1, r => if 16 < r.rem then bulkLoop p m fuel (loopBody p m r) else r

/-- The last `UPDATE` of the bulk path, on the last 8 bytes of the slice (R146, D20). -/
def absorbTail (p : Params) (m : Memory) (len : Word) (r : SliceRegs) : SliceRegs :=
  { r with a := update p.mult r.a (memRead m (len - 8) 8) }

/-- The bulk path, from the accumulator `a` after the length addition, which seeds the key (R146, D18). -/
def bulk (p : Params) (m : Memory) (len a : Word) : SliceRegs :=
  absorbTail p m len (ordAt p m (bulkLoop p m (len.toNat / 8) ⟨a, a, 0, len⟩))

/-- Step 2 of WRITE: the bands (R141 to R146). `r` holds the accumulator after the length addition and the registers as
the short bands leave them (R161). -/
def absorbSlice (p : Params) (m : Memory) (len : Word) (r : SliceRegs) : SliceRegs :=
  if len = 0 then r
  else if len = 1 then { r with a := update p.mult r.a (band1Word m) }
  else if len ≤ 3 then { r with a := update p.mult r.a (band2Word m len) }
  else if len ≤ 8 then { r with a := update p.mult r.a (band4Word m len) }
  else bulk p m len r.a

/-- The registers of the state that a WRITE of `len` bytes on slot `sd` leaves, its working values being `r` (R140, R161). -/
def commitSlice (sd : Slot) (len : Word) (r : SliceRegs) (s : State) : State :=
  setAcc sd r.a { s with cur := sd, len := len, key := r.key, pos := r.pos, rem := r.rem }

/-- WRITE `sd` of the `len` bytes of the input window (R140): the length addition, then the band. -/
def execWrite (sd : Slot) (len : Word) (s : State) : Answer :=
  onSession sd s fun a =>
    complete 0 (commitSlice sd len (absorbSlice s.cfg s.win len ⟨a + len, s.key, s.pos, s.rem⟩) s)

end Sys2Proof.Machine
end

