-- ==== Sys2Proof/Machine/Dispatch.lean ====
section
/-!
DEFINITION. The dispatch of commands to their meanings, one arm per constructor of Instr.
-/

namespace Sys2Proof.Machine

def exec (i : Instr) (s : State) : Host.Outcome State Fault Refusal :=
  match i with
  | .init sd key0 key1 => Sys2Proof.Machine.execInit sd key0 key1 s
  | .wu8 sd v => Sys2Proof.Machine.execWu8 sd v s
  | .wu16 sd v => Sys2Proof.Machine.execWu16 sd v s
  | .wu32 sd v => Sys2Proof.Machine.execWu32 sd v s
  | .wu64 sd v => Sys2Proof.Machine.execWu64 sd v s
  | .wu128 sd lo hi => Sys2Proof.Machine.execWu128 sd lo hi s
  | .write sd len => Sys2Proof.Machine.execWrite sd len s
  | .finish sd => Sys2Proof.Machine.execFinish sd s
  | .copy sd ss => Sys2Proof.Machine.execCopy sd ss s

end Sys2Proof.Machine
end

