-- ==== Sys2Proof/Machine/SliceProcessor.lean ====
section
/-!
DEFINITION. The slice processor as a state machine, one micro-step at a time (43_slice_write.md R150 to R162).
The micro-steps update `acc[sd]` in place, `sd` being `cur`.
-/

namespace Sys2Proof.Machine

/-- A read of the window port (30_encoding.md R71): the offset and log2 of the number of bytes. -/
structure WindowRead where
  off : Word
  size : BitVec 2
deriving DecidableEq, Repr

/-- How many bytes a window read takes: 1, 2, 4 or 8 (R44, R71). -/
def WindowRead.bytes (r : WindowRead) : Nat := 2 ^ r.size.toNat

/-- The read lies inside the window `0 .. len-1` (R44, R48). -/
def WindowRead.within (len : Word) (r : WindowRead) : Bool := decide (r.off.toNat + r.bytes ≤ len.toNat)

/-- `win_data`: what the window port answers (R44, R71). -/
def readWindow (s : State) (r : WindowRead) : Word := memRead s.win r.off r.bytes

/-- A micro-step that reads the window once. -/
def withRead (s : State) (r : WindowRead) (body : Word → Answer) : Answer :=
  if r.within s.len then body (readWindow s r) else .fault .windowOutOfRange

/-- The accumulator of the WRITE in progress (R151 to R161: `a` stands for `acc[sd]`). -/
def working (s : State) : Word := getAcc s.cur s

/-- `a <- v; ph <- p`. -/
def advance (v : Word) (p : Phase) (s : State) : State := setAcc s.cur v { s with ph := p }

/-- Acceptance, `IDLE` to `LENADD`, of a WRITE on slot `sd`; a dead slot does not start the processor (R151). -/
def acceptWrite (sd : Slot) (len : Word) (s : State) : Answer :=
  onSession sd s fun _ => .next { s with cur := sd, len := len, ph := .lenadd }

/-- `LENADD` (R152). -/
def stepLenadd (s : State) : Answer := .next (advance (working s + s.len) .dispatch s)

/-- The phase that `DISPATCH` selects (R153). -/
def bandPhase (len : Word) : Phase :=
  if len = 0 then .done
  else if len = 1 then .b1
  else if len ≤ 3 then .b2
  else if len ≤ 8 then .b4
  else .seed

/-- `DISPATCH` (R153). -/
def stepDispatch (s : State) : Answer := .next { s with ph := bandPhase s.len }

/-- `B1` (R154). -/
def stepB1 (s : State) : Answer :=
  withRead s ⟨0, 0⟩ fun w => .next (advance (update s.cfg.mult (working s) w) .done s)

/-- `B2` (R155). -/
def stepB2 (s : State) : Answer :=
  withRead s ⟨0, 1⟩ fun first => withRead s ⟨s.len - 2, 1⟩ fun last =>
    .next (advance (update s.cfg.mult (working s) (pack16 first last)) .done s)

/-- `B4` (R156). -/
def stepB4 (s : State) : Answer :=
  withRead s ⟨0, 2⟩ fun first => withRead s ⟨s.len - 4, 2⟩ fun last =>
    .next (advance (update s.cfg.mult (working s) (pack32 first last)) .done s)

/-- `SEED` (R157). -/
def stepSeed (s : State) : Answer :=
  .next { s with key := working s, pos := 0, rem := s.len, ph := if 16 < s.len then .loop else .front }

/-- `LOOP` (R158). -/
def stepLoop (s : State) : Answer :=
  withRead s ⟨s.pos, 3⟩ fun w =>
    let q := ord s.cfg.mult s.cfg.inc (working s) w s.key
    .next (advance q.1 (if 16 < s.rem - 8 then .loop else .front)
      { s with key := q.2, pos := s.pos + 8, rem := s.rem - 8 })

/-- `FRONT` (R159): `pos` and `rem` are not advanced. -/
def stepFront (s : State) : Answer :=
  withRead s ⟨s.pos, 3⟩ fun w =>
    let q := ord s.cfg.mult s.cfg.inc (working s) w s.key
    .next (advance q.1 .tail { s with key := q.2 })

/-- `TAIL` (R160). -/
def stepTail (s : State) : Answer :=
  withRead s ⟨s.len - 8, 3⟩ fun w => .next (advance (update s.cfg.mult (working s) w) .done s)

/-- `DONE` (R161): the response is produced and the processor is idle again. -/
def stepDone (s : State) : Answer := complete 0 { s with ph := .idle }

/-- The one micro-step that is enabled; none in `IDLE`, where the processor waits (R150, R162). -/
def microStep (s : State) : Answer :=
  match s.ph with
  | .idle => .next s
  | .lenadd => stepLenadd s
  | .dispatch => stepDispatch s
  | .b1 => stepB1 s
  | .b2 => stepB2 s
  | .b4 => stepB4 s
  | .seed => stepSeed s
  | .loop => stepLoop s
  | .front => stepFront s
  | .tail => stepTail s
  | .done => stepDone s

/-- `k` micro-steps. -/
def microRun : Nat → State → Answer
  | 0, s => .next s
  | k + 1, s =>
    match microStep s with
    | .next t => microRun k t
    | .fault f => .fault f
    | .refused r => .refused r

end Sys2Proof.Machine
end

