-- ==== Sys2Proof/Machine/Ports.lean ====
section
/-!
DEFINITION. The block's output ports as functions of the state (30_encoding.md R71). The inputs `rst`, `cmd_valid`, `cmd_cw`
and `cmd_opnd` are the State's `inputs`; `rsp_valid`, `rsp_status` and `rsp_data` are its `rspValid` and `rsp`.
-/

namespace Sys2Proof.Machine

/-- `cmd_ready`: the block is idle and accepts a command (R71, R150). -/
def cmdReady (s : State) : Bool := decide (s.ph = .idle)

/-- The window reads that the enabled micro-step issues, in their order (R58, R71, R154 to R160). -/
def windowReads (s : State) : List WindowRead :=
  match s.ph with
  | .idle => []
  | .lenadd => []
  | .dispatch => []
  | .b1 => [⟨0, 0⟩]
  | .b2 => [⟨0, 1⟩, ⟨s.len - 2, 1⟩]
  | .b4 => [⟨0, 2⟩, ⟨s.len - 4, 2⟩]
  | .seed => []
  | .loop => [⟨s.pos, 3⟩]
  | .front => [⟨s.pos, 3⟩]
  | .tail => [⟨s.len - 8, 3⟩]
  | .done => []

/-- `win_req`: the block requests a window read (R71). -/
def winReq (s : State) : Bool := !(windowReads s).isEmpty

/-- `rsp_status`, 2 bits (R28, R71). -/
def rspStatus (s : State) : BitVec 2 := statusCode s.rsp.status

/-- `rsp_data`, 64 bits (R28, R71). -/
def rspData (s : State) : Word := s.rsp.data

end Sys2Proof.Machine
end

