-- ==== Sys2Proof/Machine/Interface.lean ====
section
/-!
DEFINITION. The command channel (30_encoding.md R60, R65, R71): how the block takes what the host presents, and reset.
-/

namespace Sys2Proof.Machine

/-- The host presents a command: its window stands at the window port, and the last response is gone (R60, R71). -/
def openCommand (c : Command) (s : State) : State := { s with win := c.win, rspValid := false }

/-- A command performed to completion as one atomic transition (R60): decoded, then executed; an illegal command word
raises IllegalCommand (R65, R191). -/
def transact (c : Command) (s : State) : Answer :=
  match decode s.cfg.nsess c.words with
  | .error _ => raise .illegalCommand (openCommand c s)
  | .ok i => exec i (openCommand c s)

/-- A command of which a WRITE is only accepted, its micro-steps to follow (R150, R151); every other command is one
transition. -/
def startCommand (c : Command) (s : State) : Answer :=
  match decode s.cfg.nsess c.words with
  | .error _ => raise .illegalCommand (openCommand c s)
  | .ok (.write sd len) => acceptWrite sd len (openCommand c s)
  | .ok i => exec i (openCommand c s)

/-- One host move on an idle block. With nothing presented the block waits and keeps everything (R204, R212). -/
def idleStep (s : State) : Answer :=
  match s.inputs with
  | [] => .next s
  | .tick :: rest => .next { s with inputs := rest }
  | .reset :: rest => .next (applyReset { s with inputs := rest })
  | .command c :: rest => transact c { s with inputs := rest }
  | .stepped c :: rest => startCommand c { s with inputs := rest }

/-- One micro-step of a busy block. It accepts no command: what the host presents stays presented (R150, R215). Reset
abandons the WRITE without a response (R211). -/
def busyStep (s : State) : Answer :=
  match s.inputs with
  | [] => microStep s
  | .tick :: rest => microStep { s with inputs := rest }
  | .reset :: rest => .next (applyReset { s with inputs := rest })
  | .command _ :: _ => microStep s
  | .stepped _ :: _ => microStep s

/-- One step of the block under its host. -/
def hostStep (s : State) : Answer := if cmdReady s then idleStep s else busyStep s

/-- The state `s` in which the host presents the command of those table bits next, to an idle block, with an empty input
window (log entry 4). -/
def presentTableWord (s : State) (nbits w : Nat) : State :=
  { s with ph := .idle, inputs := .command ⟨wordsOfTable nbits w, []⟩ :: s.inputs }

end Sys2Proof.Machine
end

