-- ==== Sys2Proof/Machine/Step.lean ====
section
/-!
DEFINITION. One step of the machine. Everything it does stands in Machine/Interface.lean.
-/

namespace Sys2Proof.Machine

/-- One step: the next move of the host is taken, or the slice processor makes one micro-step. -/
def step (s : State) : Host.Outcome State Fault Refusal := hostStep s

/-- `s` with the instruction of those bits presented next, so that the very next step runs it. -/
def State.withFetchWord (s : State) (nbits w : Nat) : State := presentTableWord s nbits w

end Sys2Proof.Machine
end

