-- ==== Sys2Proof/Machine/Assembly.lean ====
section
/-!
DEFINITION. The assembler's forms (30_encoding.md R80, R81): a line of a program, the command word, operand and window it stands
for, and its text. WUSIZE and DUP have no encoding of their own.
-/

namespace Sys2Proof.Machine

/-- One line of a program (R80), pseudo-instructions included (R81). -/
inductive Line where
  | init (sd : Slot) (key0 key1 : Word)
  | wu8 (sd : Slot) (v : BitVec 8)
  | wu16 (sd : Slot) (v : BitVec 16)
  | wu32 (sd : Slot) (v : BitVec 32)
  | wu64 (sd : Slot) (v : BitVec 64)
  | wu128 (sd : Slot) (v : BitVec 128)
  | write (sd : Slot) (bytes : List Byte)
  | finish (sd : Slot)
  | copy (sd ss : Slot)
  | wusize (sd : Slot) (v : Word)
  | dup (sd ss : Slot)
deriving DecidableEq, Repr

/-- `base + (sd << 8)` (R80). -/
def cwOf (base : BitVec 16) (sd : Slot) : BitVec 16 := base + (BitVec.ofNat 16 sd.val <<< 8)

/-- The column CW of R80. -/
def lineCW : Line → BitVec 16
  | .init sd _ _ => cwOf 0x1000 sd
  | .wu8 sd _ => cwOf 0x2000 sd
  | .wu16 sd _ => cwOf 0x3000 sd
  | .wu32 sd _ => cwOf 0x4000 sd
  | .wu64 sd _ => cwOf 0x5000 sd
  | .wu128 sd _ => cwOf 0x6000 sd
  | .write sd _ => cwOf 0x7000 sd
  | .finish sd => cwOf 0x8000 sd
  | .copy sd ss => cwOf 0x9000 sd + (BitVec.ofNat 16 ss.val <<< 4)
  | .wusize sd _ => cwOf 0x5000 sd
  | .dup sd ss => cwOf 0x9000 sd + (BitVec.ofNat 16 ss.val <<< 4)

/-- The column OPND of R80; unused bits are written as 0. -/
def lineOpnd : Line → BitVec 128
  | .init _ key0 key1 => key1 ++ key0
  | .wu8 _ v => v.setWidth 128
  | .wu16 _ v => v.setWidth 128
  | .wu32 _ v => v.setWidth 128
  | .wu64 _ v => v.setWidth 128
  | .wu128 _ v => v
  | .write _ bytes => BitVec.ofNat 128 (bytes.length % 2 ^ 64)
  | .finish _ => 0
  | .copy _ _ => 0
  | .wusize _ v => v.setWidth 128
  | .dup _ _ => 0

/-- The input window of a line: the bytes of WRITE (R80). -/
def lineWindow : Line → Memory
  | .write _ bytes => windowOf bytes
  | .init _ _ _ => []
  | .wu8 _ _ => []
  | .wu16 _ _ => []
  | .wu32 _ _ => []
  | .wu64 _ _ => []
  | .wu128 _ _ => []
  | .finish _ => []
  | .copy _ _ => []
  | .wusize _ _ => []
  | .dup _ _ => []

/-- The command a line stands for (R80). -/
def lineCommand (l : Line) : Command := ⟨⟨lineCW l, lineOpnd l⟩, lineWindow l⟩

/-- The instruction a line stands for; WUSIZE is WU64 and DUP is COPY (R81). -/
def lineInstr : Line → Instr
  | .init sd key0 key1 => .init sd key0 key1
  | .wu8 sd v => .wu8 sd v
  | .wu16 sd v => .wu16 sd v
  | .wu32 sd v => .wu32 sd v
  | .wu64 sd v => .wu64 sd v
  | .wu128 sd v => .wu128 sd (v.extractLsb' 0 64) (v.extractLsb' 64 64)
  | .write sd bytes => .write sd (BitVec.ofNat 64 bytes.length)
  | .finish sd => .finish sd
  | .copy sd ss => .copy sd ss
  | .wusize sd v => Instr.wusize sd v
  | .dup sd ss => Instr.dup sd ss

/-- A slot in text: `s0` to `s15` (R80). -/
def slotText (s : Slot) : String := "s" ++ Nat.repr s.val

/-- A value in text, in decimal (R80). -/
def valueText {w : Nat} (v : BitVec w) : String := Nat.repr v.toNat

/-- `MNEMONIC sd, x, y` (R80). -/
def lineOf (mnemonic : String) (operands : List String) : String := mnemonic ++ " " ++ String.intercalate ", " operands

/-- The text form of a line (R80); a slice is written as its bytes in brackets. -/
def lineText : Line → String
  | .init sd key0 key1 => lineOf "INIT" [slotText sd, valueText key0, valueText key1]
  | .wu8 sd v => lineOf "WU8" [slotText sd, valueText v]
  | .wu16 sd v => lineOf "WU16" [slotText sd, valueText v]
  | .wu32 sd v => lineOf "WU32" [slotText sd, valueText v]
  | .wu64 sd v => lineOf "WU64" [slotText sd, valueText v]
  | .wu128 sd v => lineOf "WU128" [slotText sd, valueText v]
  | .write sd bytes => lineOf "WRITE" [slotText sd, "[" ++ String.intercalate " " (bytes.map valueText) ++ "]"]
  | .finish sd => lineOf "FINISH" [slotText sd]
  | .copy sd ss => lineOf "COPY" [slotText sd, slotText ss]
  | .wusize sd v => lineOf "WUSIZE" [slotText sd, valueText v]
  | .dup sd ss => lineOf "DUP" [slotText sd, slotText ss]

end Sys2Proof.Machine
end

