-- ==== Sys2Proof/Safety.lean ====
section
/-!
DEFINITION. What claims about a run are said in: what a command leaves unchanged, the invariant of the machine, runs of
commands, and when two states or windows agree.
-/

namespace Sys2Proof

open Sys2Proof.Machine

/-! ## Frames -/

/-- What no command changes (R30, R34, R41): the constants, the phase, every byte of the window, the host's moves and the
count of free values. -/
structure CommandFrame (s t : State) : Prop where
  cfg : t.cfg = s.cfg
  ph : t.ph = s.ph
  win : t.win = s.win
  bytes : ∀ a, byteAt t.win a = byteAt s.win a
  inputs : t.inputs = s.inputs
  free : t.free = s.free

/-- The hidden registers of the slice processor are unchanged (R24 to R26). -/
structure HiddenFrame (s t : State) : Prop where
  len : t.len = s.len
  pos : t.pos = s.pos
  rem : t.rem = s.rem
  key : t.key = s.key
  cur : t.cur = s.cur

/-- Every slot but `sd` is unchanged, its flag and its accumulator (R23). -/
structure OtherSlotsFrame (sd : Slot) (s t : State) : Prop where
  acc : ∀ j, j ≠ sd → getAcc j t = getAcc j s
  live : ∀ j, j ≠ sd → isLive j t = isLive j s

/-- `t` is `s` after a command that left `v` in the accumulator and `b` in the flag of slot `sd`, completed with `(OK, 0)`,
and changed no other register. -/
structure SlotWritten (sd : Slot) (v : Word) (b : Bool) (s t : State) : Prop where
  acc : getAcc sd t = v
  live : isLive sd t = b
  rsp : t.rsp = ⟨.ok, 0⟩
  valid : t.rspValid = true
  others : OtherSlotsFrame sd s t
  hidden : HiddenFrame s t
  frame : CommandFrame s t

/-- `t` is `s` after a command that left `v` in the accumulator of slot `sd`, completed with `(OK, 0)`, kept its flag, and
changed no other register but the hidden ones (R140, R161). -/
structure SliceWritten (sd : Slot) (v : Word) (s t : State) : Prop where
  acc : getAcc sd t = v
  live : isLive sd t = isLive sd s
  rsp : t.rsp = ⟨.ok, 0⟩
  valid : t.rspValid = true
  others : OtherSlotsFrame sd s t
  frame : CommandFrame s t

/-- Slot `sd` exists and holds a session: the condition on which a command that reads it completes (R192, R194). -/
def Ready (sd : Slot) (s : State) : Prop := Slot.inRange s.cfg.nsess sd = true ∧ isLive sd s = true

/-! ## The invariant -/

/-- The window a host move presents is in canonical form. -/
def inputWindowOk : HostInput → Bool
  | .tick => true
  | .reset => true
  | .command c => Memory.wf c.win
  | .stepped c => Memory.wf c.win

/-- In the bulk path `pos` is a multiple of 8 and `pos + rem = len` (R25). -/
def BulkPosition (s : State) : Prop := 9 ≤ s.len ∧ s.pos.toNat % 8 = 0 ∧ s.pos.toNat + s.rem.toNat = s.len.toNat

/-- What each phase of the slice processor may assume (R25, R48, R153, R158, R159). -/
def PhaseBounds (s : State) : Prop :=
  match s.ph with
  | .idle => True
  | .lenadd => True
  | .dispatch => True
  | .b1 => s.len = 1
  | .b2 => 2 ≤ s.len ∧ s.len ≤ 3
  | .b4 => 4 ≤ s.len ∧ s.len ≤ 8
  | .seed => 9 ≤ s.len
  | .loop => BulkPosition s ∧ 16 < s.rem
  | .front => BulkPosition s ∧ 9 ≤ s.rem ∧ s.rem ≤ 16
  | .tail => BulkPosition s ∧ 9 ≤ s.rem ∧ s.rem ≤ 16
  | .done => True

/-- The invariant of the machine: its parameters are legal (R9, R10, R11), no slot that does not exist is live, windows are
in canonical form, and a WRITE in progress works on a live slot within the bounds of its phase. -/
structure Inv (s : State) : Prop where
  legal : s.cfg.Legal
  slots : ∀ j : Slot, Slot.inRange s.cfg.nsess j = false → isLive j s = false
  window : Memory.wf s.win = true
  windows : ∀ x ∈ s.inputs, inputWindowOk x = true
  session : s.ph ≠ .idle → Ready s.cur s
  bounds : PhaseBounds s

/-! ## Runs and comparisons -/

/-- The state in which a command with the window `m` is presented (R60). -/
def withWindow (m : Memory) (s : State) : State := { s with win := m }

/-- A sequence of commands with their windows, each performed to completion (R52, R60). -/
def runCommands : List (Instr × Memory) → State → Answer
  | [], s => .next s
  | c :: cs, s =>
    match exec c.1 (withWindow c.2 s) with
    | .next t => runCommands cs t
    | .fault f => .fault f
    | .refused r => .refused r

/-- The responses of a sequence of commands (R60). -/
def responses : List (Instr × Memory) → State → List Response
  | [], _ => []
  | c :: cs, s =>
    match exec c.1 (withWindow c.2 s) with
    | .next t => t.rsp :: responses cs t
    | .fault _ => []
    | .refused _ => []

/-- The same command on slot `d`; COPY keeps its source. -/
def retarget (d : Slot) : Instr → Instr
  | .init _ key0 key1 => .init d key0 key1
  | .wu8 _ v => .wu8 d v
  | .wu16 _ v => .wu16 d v
  | .wu32 _ v => .wu32 d v
  | .wu64 _ v => .wu64 d v
  | .wu128 _ lo hi => .wu128 d lo hi
  | .write _ len => .write d len
  | .finish _ => .finish d
  | .copy _ ss => .copy d ss

/-- The commands of a sequence, all on slot `d`. -/
def retargetAll (d : Slot) (cs : List (Instr × Memory)) : List (Instr × Memory) := cs.map fun c => (retarget d c.1, c.2)

/-- No slot holds a session. -/
def NothingLive (s : State) : Prop := ∀ j, isLive j s = false

/-- Two states agree on slot `sd`. -/
def SameSlot (sd : Slot) (s t : State) : Prop := getAcc sd t = getAcc sd s ∧ isLive sd t = isLive sd s

/-- Two states agree on the parameters, on every flag and on the accumulators of the live slots. -/
structure SameSessions (s t : State) : Prop where
  cfg : t.cfg = s.cfg
  live : ∀ j, isLive j t = isLive j s
  acc : ∀ j, isLive j s = true → getAcc j t = getAcc j s

/-- Two windows hold the same bytes at the offsets `0 .. len-1`, which is all a slice of `len` bytes is (R42). -/
def SameBytes (len : Word) (m m' : Memory) : Prop := ∀ a, a < len.toNat → byteAt m a = byteAt m' a

/-- The word that a slice of 1 to 8 bytes absorbs (R143, R144, R145). -/
def packedWord (m : Memory) (len : Word) : Word :=
  if len = 1 then band1Word m else if len ≤ 3 then band2Word m len else band4Word m len

/-- The phase that follows by a micro-step, with the conditions of R153, R157 and R158; an idle processor waits (R152 to R161). -/
def phaseAfter (s : State) : Phase :=
  match s.ph with
  | .idle => .idle
  | .lenadd => .dispatch
  | .dispatch =>
    if s.len = 0 then .done
    else if s.len = 1 then .b1
    else if 2 ≤ s.len ∧ s.len ≤ 3 then .b2
    else if 4 ≤ s.len ∧ s.len ≤ 8 then .b4
    else .seed
  | .b1 => .done
  | .b2 => .done
  | .b4 => .done
  | .seed => if 16 < s.len then .loop else .front
  | .loop => if 16 < s.rem - 8 then .loop else .front
  | .front => .tail
  | .tail => .done
  | .done => .idle

/-- `f` is one-to-one and reaches every value. -/
def Bijective64 (f : Word → Word) : Prop := (∀ x y, f x = f y → x = y) ∧ (∀ y, ∃ x, f x = y)

/-- The number of loop iterations of the bulk path, `floor((len - 9) / 8)` (R147). -/
def bulkIterations (len : Word) : Nat := (len.toNat - 9) / 8

/-- How many micro-steps follow the acceptance of a WRITE (R163). -/
def microSteps (len : Word) : Nat :=
  if len = 0 then 3 else if len ≤ 8 then 4 else bulkIterations len + 6

/-- `MIX(B_0 ^ k_0) ^ … ^ MIX(B_(n-1) ^ k_(n-1))` with `k_i = k + i * INC` and `B_i` the word `b i` (R96, R148). -/
def xorOfTerms (p : Params) (k : Word) (b : Nat → Word) : Nat → Word
  | 0 => 0
  | n + 1 => xorOfTerms p k b n ^^^ mix p.mult (b n ^^^ (k + BitVec.ofNat 64 n * p.inc))

/-- A run of `n` consecutive `ORD` steps with the words `b 0, b 1, …` (R96). -/
def ordRun (p : Params) (b : Nat → Word) : Nat → Word × Word → Word × Word
  | 0, ak => ak
  | n + 1, ak => ord p.mult p.inc (ordRun p b n ak).1 (b n) (ordRun p b n ak).2

/-- The inverse of `MIX` for a multiplier whose inverse is `minv` (R92). -/
def mixInverse (minv y : Word) : Word := rotl64 (y * minv) (64 - Config.rotation) * minv

end Sys2Proof
end

