-- ==== Sys2Proof/Certificates/Slice0/Obligations.lean ====
section
/-!
DEFINITION. The statements about the model, each from numbered rules of the spec or derived from them. They are stated for
every state, hence for every value of the parameters `M`, `INC`, `NSESS` that the state carries; where a rule needs a
constraint on a parameter (R9, R10) the statement names it.
-/

open Sys2Proof Sys2Proof.Machine

/-! ## Encoding (30_encoding.md) -/

/-- Decoding the words of a well-formed command gives the command back, whatever its operands. -/
def Obligations.DecodeOfEncodeIsTheCommand : Prop :=
  ∀ (nsess : Nat) (i : Instr), i.wf nsess = true → decode nsess (encode i) = .ok i

/-- Decoding loses nothing but the operand bits that the format does not read, and yields only well-formed commands. -/
def Obligations.EncodeOfDecodeKeepsReadBits : Prop :=
  ∀ (nsess : Nat) (w : Words) (i : Instr), decode nsess w = .ok i →
    i.wf nsess = true ∧ encode i = ⟨w.cw, i.opcode.format.readPart w.opnd⟩

/-- R65: decoding is total. A command word either selects exactly one row of R64 and names existing slots, and then decodes
to a command of that row, or it raises IllegalCommand; legality depends on `CW` and `NSESS` alone. -/
def Obligations.EveryCommandWordIsLegalOrIllegal : Prop :=
  (∀ (nsess : Nat) (w : Words),
    (∃ i, decode nsess w = .ok i) ↔
      ∃ r ∈ opcodeTable, r.selects w.cw = true ∧ (∀ r' ∈ opcodeTable, r'.selects w.cw = true → r' = r) ∧
        (sdField w.cw).val < nsess ∧ (r.op = .copy → (ssField w.cw).val < nsess)) ∧
  (∀ (nsess : Nat) (w : Words) (i : Instr), decode nsess w = .ok i →
    ∃ r ∈ opcodeTable, r.selects w.cw = true ∧ r.op = i.opcode) ∧
  (∀ (s : State) (c : Command), (∀ i, decode s.cfg.nsess c.words ≠ .ok i) →
    transact c s = raise .illegalCommand (openCommand c s)) ∧
  (∀ (nsess : Nat) (cw : BitVec 16) (opnd opnd' : BitVec 128),
    (∃ i, decode nsess ⟨cw, opnd⟩ = .ok i) → ∃ i, decode nsess ⟨cw, opnd'⟩ = .ok i)

/-- R66, R67, R68: a reserved operation code selects no row and is illegal whatever the other fields are; so is a command
word with non-zero reserved bits, with a non-zero `ss` outside COPY, or with a slot the block lacks. With 16 slots every
slot number is in range. -/
def Obligations.ReservedEncodingsRaiseIllegalCommand : Prop :=
  (∀ (s : State) (c : Command), (opField c.words.cw = 0 ∨ 10 ≤ (opField c.words.cw).toNat) →
    (∀ r ∈ opcodeTable, r.selects c.words.cw = false) ∧
      transact c s = raise .illegalCommand (openCommand c s)) ∧
  (∀ (s : State) (opnd : BitVec 128) (m : Memory),
    transact ⟨⟨0, opnd⟩, m⟩ s = raise .illegalCommand (openCommand ⟨⟨0, opnd⟩, m⟩ s)) ∧
  (∀ (s : State) (c : Command),
    (rsvField c.words.cw ≠ 0 ∨ (ssField c.words.cw ≠ 0 ∧ opField c.words.cw ≠ 9)) →
    (∀ r ∈ opcodeTable, r.selects c.words.cw = false) ∧
      transact c s = raise .illegalCommand (openCommand c s)) ∧
  (∀ (s : State) (c : Command),
    (s.cfg.nsess ≤ (sdField c.words.cw).val ∨
      (opField c.words.cw = 9 ∧ s.cfg.nsess ≤ (ssField c.words.cw).val)) →
    transact c s = raise .illegalCommand (openCommand c s)) ∧
  (∀ sd : Slot, Slot.inRange 16 sd = true)

/-- R191: a command raises IllegalCommand exactly for the causes (a) to (e), and neither `OPND` nor the window causes it. -/
def Obligations.IllegalCommandHasExactlyFiveCauses : Prop :=
  ∀ (s : State) (c : Command),
    transact c s = raise .illegalCommand (openCommand c s) ↔
      (((opField c.words.cw).toNat = 0 ∨ 10 ≤ (opField c.words.cw).toNat) ∨
        c.words.cw.extractLsb' 0 4 ≠ 0 ∨
        (c.words.cw.extractLsb' 4 4 ≠ 0 ∧ opField c.words.cw ≠ 9) ∨
        s.cfg.nsess ≤ (sdField c.words.cw).val ∨
        (opField c.words.cw = 9 ∧ s.cfg.nsess ≤ (ssField c.words.cw).val))

/-- The operand bits that the selected command's format does not read change nothing (R62, R63). -/
def Obligations.UnreadOperandBitsChangeNothing : Prop :=
  ∀ (nsess : Nat) (cw : BitVec 16) (opnd opnd' : BitVec 128),
    (∀ op, Opcode.ofCode (opField cw) = some op → op.format.readPart opnd = op.format.readPart opnd') →
    decode nsess ⟨cw, opnd⟩ = decode nsess ⟨cw, opnd'⟩

/-- Words written out from R61, R62 and R64 decode to the commands they stand for, on a block of 2 slots. -/
def Obligations.WordsOfTheSpecDecode : Prop :=
  decode 2 ⟨0b0001000000000000, 0xFEDCBA98765432100123456789ABCDEF⟩ =
    .ok (.init 0 0x0123456789ABCDEF 0xFEDCBA9876543210) ∧
  decode 2 ⟨0b0010000100000000, 0x1FF⟩ = .ok (.wu8 1 0xFF) ∧
  decode 2 ⟨0b0110000000000000, 0x0F1E2D3C4B5A69788796A5B4C3D2E1F0⟩ =
    .ok (.wu128 0 0x8796A5B4C3D2E1F0 0x0F1E2D3C4B5A6978) ∧
  decode 2 ⟨0b0111000100000000, 0xC⟩ = .ok (.write 1 12) ∧
  decode 2 ⟨0b1000000000000000, 0⟩ = .ok (.finish 0) ∧
  decode 2 ⟨0b1001000100000000, 0⟩ = .ok (.copy 1 0) ∧
  decode 2 ⟨0b1001000000010000, 0⟩ = .ok (.copy 0 1) ∧
  decode 2 ⟨0b0001001000000000, 0⟩ = .error .slotRange

/-- The assembler's forms (R80) stand for the commands they name: their words decode to the command, WRITE's window holds the
bytes of the slice, and WUSIZE is WU64 and DUP is COPY (R81). -/
def Obligations.AssemblerFormsStandForTheirCommands : Prop :=
  (∀ (nsess : Nat) (l : Line), (lineInstr l).wf nsess = true →
    decode nsess (lineCommand l).words = .ok (lineInstr l)) ∧
  (∀ (sd : Slot) (bytes : List Byte) (a : Nat), byteAt (lineCommand (.write sd bytes)).win a = bytes.getD a 0) ∧
  (∀ (sd : Slot) (v : Word), lineCommand (.wusize sd v) = lineCommand (.wu64 sd v)) ∧
  (∀ sd ss : Slot, lineCommand (.dup sd ss) = lineCommand (.copy sd ss))

/-! ## The datapath (40_mixer_primitives.md) -/

/-- R91: `MIX` multiplies, rotates left by 23, and multiplies again; with the worked example of the rule. -/
def Obligations.MixMultipliesRotatesMultiplies : Prop :=
  (∀ m x : Word, mix m x = (x * m).rotateLeft 23 * m) ∧
  (1 * Params.default.mult = 0x5851F42D4C957F2D ∧ (0x5851F42D4C957F2D : Word).rotateLeft 23 = 0x16A64ABF96AC28FA ∧
    mix Params.default.mult 1 = 0x56F979BCF61939F2)

/-- R92: 0 is fixed; `MIX` is a bijection for odd `M`, with the inverse of the rule; `M = 1` leaves the rotation; a product's
bit `i` depends on bits `0 .. i` only, so the top bit goes where the rule says. -/
def Obligations.MixIsABijectionForOddMultipliers : Prop :=
  (∀ m : Word, mix m 0 = 0) ∧
  (∀ m : Word, m.getLsbD 0 = true → Bijective64 (mix m)) ∧
  (∀ m minv x : Word, m * minv = 1 → mixInverse minv (mix m x) = x ∧ mix m (mixInverse minv x) = x) ∧
  (∀ m : Word, m.getLsbD 0 = true → ∃ minv : Word, m * minv = 1) ∧
  Params.default.mult * 0xC097EF87329E28A5 = 1 ∧
  (∀ x : Word, mix 1 x = rotl64 x 23) ∧
  (∀ (m x y : Word) (i : Nat), (∀ j, j ≤ i → x.getLsbD j = y.getLsbD j) → (x * m).getLsbD i = (y * m).getLsbD i) ∧
  (∀ m : Word, m.getLsbD 0 = true →
    (0x8000000000000000 : Word) * m = 0x8000000000000000 ∧ mix m 0x8000000000000000 = 0x400000 * m)

/-- R93: `UPDATE(a, w) = MIX(a) ^ w`; its corner cases; for fixed `a` it is a bijection in `w`, and for fixed `w` one in `a`
where `M` is odd; with the worked example. -/
def Obligations.UpdateMixesTheAccumulatorAndXorsTheWord : Prop :=
  (∀ m a w : Word, update m a w = mix m a ^^^ w) ∧
  (∀ m a : Word, update m a 0 = mix m a) ∧ (∀ m w : Word, update m 0 w = w) ∧
  (∀ m a : Word, Bijective64 fun w => update m a w) ∧
  (∀ m w : Word, m.getLsbD 0 = true → Bijective64 fun a => update m a w) ∧
  mix Params.default.mult 0x0123456789ABCDEF = 0xD2E0991B9464A3F8 ∧
  update Params.default.mult 0x0123456789ABCDEF 0xFF = 0xD2E0991B9464A307

/-- R95: `ORD(a, w, k) = (a ^ MIX(w ^ k), k + INC)`; the key wraps; `w = k` leaves the accumulator; with the worked
example. -/
def Obligations.OrdMixesTheWordUnderTheKey : Prop :=
  (∀ m inc a w k : Word, ord m inc a w k = (a ^^^ mix m (w ^^^ k), k + inc)) ∧
  (∀ m inc a w : Word, (ord m inc a w 0xFFFFFFFFFFFFFFFF).2 = inc - 1) ∧ Params.default.inc - 1 = 0x14057B7EF767814E ∧
  (∀ m inc a k : Word, ord m inc a k k = (a, k + inc)) ∧
  mix Params.default.mult 0x3333333333333333 = 0xC0640190BC5D0E2D ∧
  ord Params.default.mult Params.default.inc 0x0123456789ABCDEF 0x1111111111111111 0x2222222222222222 =
    (0xC14744F735F6C3C2, 0x36279DA11989A371)

/-- A run of `n` `ORD` steps XORs the terms `MIX(w_i ^ k_i)` into the accumulator and leaves the key `k_n`; neighbouring keys
differ when `INC` is not 0, and all keys of a run differ when `INC` is odd (R96). -/
def Obligations.OrdRunXorsIndependentTerms : Prop :=
  (∀ (p : Params) (b : Nat → Word) (n : Nat) (a k : Word),
    ordRun p b n (a, k) = (a ^^^ xorOfTerms p k b n, k + BitVec.ofNat 64 n * p.inc)) ∧
  (∀ (inc k : Word) (n : Nat), inc ≠ 0 → k + BitVec.ofNat 64 n * inc ≠ k + BitVec.ofNat 64 (n + 1) * inc) ∧
  (∀ (inc k : Word) (i j : Nat), inc.getLsbD 0 = true → i < 2 ^ 64 → j < 2 ^ 64 → i ≠ j →
    k + BitVec.ofNat 64 i * inc ≠ k + BitVec.ofNat 64 j * inc)

/-- R98, R99: the product is the low 64 bits of the full product, read unsigned or signed, and the rotation is `{x[40:0], x[63:41]}`; with the
examples of the rules. -/
def Obligations.ProductAndRotationAreAsStated : Prop :=
  (∀ x m : Word, (x * m).toNat = x.toNat * m.toNat % 2 ^ 64 ∧ x * m = BitVec.ofInt 64 (x.toInt * m.toInt)) ∧
  (0x64 * Params.default.mult = 0x800361B1EA65AD94 ∧
    0xFFFFFFFFFFFFFFFF * Params.default.mult = 0xA7AE0BD2B36A80D3 ∧ 0 - Params.default.mult = 0xA7AE0BD2B36A80D3) ∧
  (∀ x : Word, rotl64 x 23 = x.extractLsb' 0 41 ++ x.extractLsb' 41 23) ∧
  (∀ (x : Word) (i : Nat), i < 64 → (rotl64 x 23).getLsbD ((i + 23) % 64) = x.getLsbD i) ∧
  rotl64 0x8000000000000000 23 = 0x400000 ∧ rotl64 1 23 = 0x800000

/-! ## The input window (20_memory.md) -/

/-- R44, R45: `MemRead(off, n)` is the sum of `win(off + i) * 2^(8i)`, little-endian at every width, and a wider read sees
the same bytes as a narrower one at the same offset. -/
def Obligations.WindowReadIsTheLittleEndianSum : Prop :=
  (∀ (m : Memory) (off : Word) (n : Nat), (n = 1 ∨ n = 2 ∨ n = 4 ∨ n = 8) →
    (memRead m off n).toNat = ∑ i ∈ Finset.range n, (byteAt m (off.toNat + i)).toNat * 2 ^ (8 * i)) ∧
  (∀ (m : Memory) (off : Word),
    (memRead m off 8).extractLsb' 0 32 = (memRead m off 4).extractLsb' 0 32 ∧
    (memRead m off 4).extractLsb' 0 16 = (memRead m off 2).extractLsb' 0 16 ∧
    (memRead m off 2).extractLsb' 0 8 = (memRead m off 1).extractLsb' 0 8) ∧
  memRead (windowOf [0x64, 0x64, 0x64, 0x64, 0x64, 0x64, 0x64, 0x64]) 0 8 = 0x6464646464646464

/-- R48: in every state that meets the invariant, every read that the slice processor issues lies inside the window; the
reads of each phase, with the bounds the rule gives. -/
def Obligations.WindowReadsAreAlwaysInRange : Prop :=
  ∀ s : State, Inv s →
    (∀ r ∈ windowReads s, r.off.toNat + r.bytes ≤ s.len.toNat) ∧
    (s.ph = .b1 → windowReads s = [⟨0, 0⟩] ∧ s.len = 1) ∧
    (s.ph = .b2 → windowReads s = [⟨0, 1⟩, ⟨s.len - 2, 1⟩] ∧ 2 ≤ s.len) ∧
    (s.ph = .b4 → windowReads s = [⟨0, 2⟩, ⟨s.len - 4, 2⟩] ∧ 4 ≤ s.len) ∧
    (s.ph = .loop → windowReads s = [⟨s.pos, 3⟩] ∧ s.rem = s.len - s.pos ∧ 16 < s.rem) ∧
    (s.ph = .front → windowReads s = [⟨s.pos, 3⟩] ∧ s.rem = s.len - s.pos ∧ 9 ≤ s.rem) ∧
    (s.ph = .tail → windowReads s = [⟨s.len - 8, 3⟩] ∧ 9 ≤ s.len) ∧
    (s.ph = .idle ∨ s.ph = .lenadd ∨ s.ph = .dispatch ∨ s.ph = .seed ∨ s.ph = .done → windowReads s = [])

/-- A micro-step depends on the window only through the reads it issues at the port. -/
def Obligations.MicroStepSeesOnlyTheReadsItIssues : Prop :=
  ∀ (s t : State) (m : Memory),
    (∀ r ∈ windowReads s, ∀ i, i < r.bytes → byteAt m (r.off.toNat + i) = byteAt s.win (r.off.toNat + i)) →
    microStep s = .next t → microStep (withWindow m s) = .next (withWindow m t)

/-- WRITE depends on the window only through the bytes at the offsets below `len`. -/
def Obligations.WriteSeesOnlyTheBytesOfItsSlice : Prop :=
  ∀ (s t : State) (sd : Slot) (len : Word) (m : Memory), SameBytes len m s.win →
    exec (.write sd len) s = .next t → exec (.write sd len) (withWindow m s) = .next (withWindow m t)

/-! ## INIT, COPY, FINISH (41_init_copy.md, 44_finish.md) -/

/-- R110: the encoding of INIT; on a slot the block lacks it raises IllegalCommand; otherwise it completes, whether the slot
was live or not, with `acc[sd] = key0 ^ rotl64(key1, 23)`, `live[sd] = 1` and `(OK, 0)`, and changes no other register;
with the worked example. -/
def Obligations.InitCreatesASession : Prop :=
  (∀ (nsess : Nat) (sd : Slot) (opnd : BitVec 128),
    decode nsess ⟨cwOf 0x1000 sd, opnd⟩ =
      if sd.val < nsess then .ok (.init sd (opnd.extractLsb' 0 64) (opnd.extractLsb' 64 64)) else .error .slotRange) ∧
  (∀ (s : State) (sd : Slot) (key0 key1 : Word), Slot.inRange s.cfg.nsess sd = false →
    exec (.init sd key0 key1) s = raise .illegalCommand s) ∧
  (∀ (s : State) (sd : Slot) (key0 key1 : Word), Slot.inRange s.cfg.nsess sd = true →
    ∃ t, exec (.init sd key0 key1) s = .next t ∧ SlotWritten sd (key0 ^^^ key1.rotateLeft 23) true s t) ∧
  initialAcc 0x0123456789ABCDEF 0xFEDCBA9876543210 = 0x4D186F7E81D4A3B2

/-- R111: key pairs with the same `key0 ^ rotl64(key1, 23)` give the same session, and every accumulator value and `key1`
have exactly one `key0`; with the examples of the rule. -/
def Obligations.SessionsDependOnlyOnTheMixedKeys : Prop :=
  (∀ (s : State) (sd : Slot) (k0 k1 k0' k1' : Word), k0 ^^^ k1.rotateLeft 23 = k0' ^^^ k1'.rotateLeft 23 →
    exec (.init sd k0 k1) s = exec (.init sd k0' k1') s) ∧
  (∀ a k1 : Word, ∃ k0, initialAcc k0 k1 = a ∧ ∀ k, initialAcc k k1 = a → k = k0) ∧
  (initialAcc 0 0 = 0 ∧ initialAcc 0x800000 1 = 0 ∧ initialAcc 0xFFFFFFFFFFFFFFFF 0xFFFFFFFFFFFFFFFF = 0)

/-- R114: the encoding of COPY; its checks in their order; it completes with `acc[sd] = acc[ss]`, `live[sd] = 1` and
`(OK, 0)`, whether `sd` was live or not, and changes no other register; COPY onto itself changes no slot. -/
def Obligations.CopyDuplicatesASession : Prop :=
  (∀ (nsess : Nat) (sd ss : Slot) (opnd : BitVec 128),
    decode nsess ⟨cwOf 0x9000 sd + (BitVec.ofNat 16 ss.val <<< 4), opnd⟩ =
      if sd.val < nsess then (if ss.val < nsess then .ok (.copy sd ss) else .error .sourceRange)
      else .error .slotRange) ∧
  (∀ (s : State) (sd ss : Slot), (Slot.inRange s.cfg.nsess sd = false ∨ Slot.inRange s.cfg.nsess ss = false) →
    exec (.copy sd ss) s = raise .illegalCommand s) ∧
  (∀ (s : State) (sd ss : Slot), Slot.inRange s.cfg.nsess sd = true → Slot.inRange s.cfg.nsess ss = true →
    isLive ss s = false → exec (.copy sd ss) s = raise .notLive s) ∧
  (∀ (s : State) (sd ss : Slot), Slot.inRange s.cfg.nsess sd = true → Ready ss s →
    ∃ t, exec (.copy sd ss) s = .next t ∧ SlotWritten sd (getAcc ss s) true s t ∧
      (sd = ss → t.acc = s.acc ∧ t.live = s.live))

/-- R180: the encoding of FINISH; its checks in their order; it completes with `(OK, MIX(acc[sd]))` and writes no state of
any kind. -/
def Obligations.FinishReturnsTheDigest : Prop :=
  (∀ (nsess : Nat) (sd : Slot) (opnd : BitVec 128),
    decode nsess ⟨cwOf 0x8000 sd, opnd⟩ = if sd.val < nsess then .ok (.finish sd) else .error .slotRange) ∧
  (∀ (s : State) (sd : Slot), Slot.inRange s.cfg.nsess sd = false → exec (.finish sd) s = raise .illegalCommand s) ∧
  (∀ (s : State) (sd : Slot), Slot.inRange s.cfg.nsess sd = true → isLive sd s = false →
    exec (.finish sd) s = raise .notLive s) ∧
  (∀ (s : State) (sd : Slot), Ready sd s →
    exec (.finish sd) s = .next { s with rsp := ⟨.ok, mix s.cfg.mult (getAcc sd s)⟩, rspValid := true }) ∧
  (mix Params.default.mult 0x4D186F7E81D4A3B2 = 0x781BAFC0A15D0DB9 ∧
    mix Params.default.mult 0x781BAFC0A15D0D46 = 0xB65A17E82768C10E ∧ ∀ m, mix m 0 = 0)

/-- R181: FINISH is repeatable: once more at once it answers the same state, and after any sequence of commands on other slots
the same response; every later command goes as if the FINISH had not happened; and no sequence of commands closes a session. -/
def Obligations.FinishDoesNotEndTheSession : Prop :=
  ∀ (s t : State) (sd : Slot), exec (.finish sd) s = .next t →
    exec (.finish sd) t = .next t ∧
    (∀ (i : Instr) (m : Memory), exec i (withWindow m t) = exec i (withWindow m s)) ∧
    (∀ cs : List (Instr × Memory), (∀ c ∈ cs, c.1.dest ≠ sd) →
      ∃ u v, runCommands cs t = .next u ∧ exec (.finish sd) u = .next v ∧ v.rsp = t.rsp) ∧
    (∀ cs : List (Instr × Memory), isLive sd s = true → ∃ u, runCommands cs t = .next u ∧ isLive sd u = true)

/-- R182: the digest is the only output that depends on an accumulator; for odd `M` it determines the accumulator, and
whoever knows the inverse of `M` can compute it. -/
def Obligations.DigestDeterminesTheAccumulator : Prop :=
  (∀ (s t s' t' : State) (sd sd' : Slot), Ready sd s → Ready sd' s' → s.cfg = s'.cfg → s.cfg.mult.getLsbD 0 = true →
    exec (.finish sd) s = .next t → exec (.finish sd') s' = .next t' →
    (t.rsp = t'.rsp ↔ getAcc sd s = getAcc sd' s')) ∧
  (∀ (s t : State) (sd : Slot) (minv : Word), Ready sd s → s.cfg.mult * minv = 1 →
    exec (.finish sd) s = .next t → t.rsp.data = mix s.cfg.mult (getAcc sd s) ∧ mixInverse minv t.rsp.data = getAcc sd s) ∧
  (∀ (i : Instr) (s t t' : State) (bank : Vector Word maxSlots), exec i s = .next t →
    exec i { s with acc := bank } = .next t' →
    t'.rsp.status = t.rsp.status ∧ ((i.opcode ≠ .finish ∨ t.rsp.status ≠ .ok) → t'.rsp = t.rsp))

/-! ## The fixed-width writes (42_fixed_width.md) -/

/-- What R121 to R124 say of one width `w`: the encoding, the two checks in their order, and completion with
`acc[sd] <- MIX(acc[sd]) ^ zext_64(v)`, `(OK, 0)` and no other register changed; with the rule's worked example, the value
`x` absorbed from `A0` leaving `r`. -/
def FixedWidthRule (w : Nat) (base : BitVec 16) (command : Slot → BitVec w → Instr) (x : BitVec w) (r : Word) : Prop :=
  (∀ (nsess : Nat) (sd : Slot) (opnd : BitVec 128),
    decode nsess ⟨cwOf base sd, opnd⟩ =
      if sd.val < nsess then .ok (command sd (opnd.extractLsb' 0 w)) else .error .slotRange) ∧
  (∀ (s : State) (sd : Slot) (v : BitVec w), Slot.inRange s.cfg.nsess sd = false →
    exec (command sd v) s = raise .illegalCommand s) ∧
  (∀ (s : State) (sd : Slot) (v : BitVec w), Slot.inRange s.cfg.nsess sd = true → isLive sd s = false →
    exec (command sd v) s = raise .notLive s) ∧
  (∀ (s : State) (sd : Slot) (v : BitVec w), Ready sd s →
    ∃ t, exec (command sd v) s = .next t ∧
      SlotWritten sd (mix s.cfg.mult (getAcc sd s) ^^^ v.setWidth 64) true s t) ∧
  update Params.default.mult 0x4D186F7E81D4A3B2 (zext64 x) = r

/-- R121. -/
def Obligations.Wu8AbsorbsAByte : Prop := FixedWidthRule 8 0x2000 .wu8 0xFF 0x781BAFC0A15D0D46

/-- R122. -/
def Obligations.Wu16AbsorbsAHalfword : Prop := FixedWidthRule 16 0x3000 .wu16 0xBEEF 0x781BAFC0A15DB356

/-- R123. -/
def Obligations.Wu32AbsorbsA32BitValue : Prop :=
  FixedWidthRule 32 0x4000 .wu32 0xDEADBEEF 0x781BAFC07FF0B356

/-- R124. -/
def Obligations.Wu64AbsorbsAWord : Prop :=
  FixedWidthRule 64 0x5000 .wu64 0x6464646464646464 0x1C7FCBA4C53969DD

/-- R125: the same for the two words of WU128, the low word first. -/
def Obligations.Wu128AbsorbsTwoWordsLowFirst : Prop :=
  (∀ (nsess : Nat) (sd : Slot) (opnd : BitVec 128),
    decode nsess ⟨cwOf 0x6000 sd, opnd⟩ =
      if sd.val < nsess then .ok (.wu128 sd (opnd.extractLsb' 0 64) (opnd.extractLsb' 64 64)) else .error .slotRange) ∧
  (∀ (s : State) (sd : Slot) (lo hi : Word), Slot.inRange s.cfg.nsess sd = false →
    exec (.wu128 sd lo hi) s = raise .illegalCommand s) ∧
  (∀ (s : State) (sd : Slot) (lo hi : Word), Slot.inRange s.cfg.nsess sd = true → isLive sd s = false →
    exec (.wu128 sd lo hi) s = raise .notLive s) ∧
  (∀ (s : State) (sd : Slot) (lo hi : Word), Ready sd s →
    ∃ t, exec (.wu128 sd lo hi) s = .next t ∧
      SlotWritten sd (mix s.cfg.mult (mix s.cfg.mult (getAcc sd s) ^^^ lo) ^^^ hi) true s t) ∧
  (∀ (s : State) (sd : Slot) (lo hi : Word),
    ∃ t, exec (.wu64 sd lo) s = .next t ∧ exec (.wu128 sd lo hi) s = exec (.wu64 sd hi) t) ∧
  update Params.default.mult (update Params.default.mult 0x4D186F7E81D4A3B2 0x8796A5B4C3D2E1F0) 0x0F1E2D3C4B5A6978 =
    0xA8AE3A960C1F2F6C

/-- The width of a fixed-width write does not enter its result (R121 to R124, R127). -/
def Obligations.WidthDoesNotEnterTheResult : Prop :=
  (∀ (s : State) (sd : Slot) (x : BitVec 8),
    exec (.wu8 sd x) s = exec (.wu16 sd (x.setWidth 16)) s ∧
    exec (.wu8 sd x) s = exec (.wu32 sd (x.setWidth 32)) s ∧
    exec (.wu8 sd x) s = exec (.wu64 sd (x.setWidth 64)) s) ∧
  (∀ (s : State) (sd : Slot) (x : BitVec 16),
    exec (.wu16 sd x) s = exec (.wu32 sd (x.setWidth 32)) s ∧
    exec (.wu16 sd x) s = exec (.wu64 sd (x.setWidth 64)) s) ∧
  (∀ (s : State) (sd : Slot) (x : BitVec 32), exec (.wu32 sd x) s = exec (.wu64 sd (x.setWidth 64)) s)

/-- A word absorbed by WU64 and the same 8 bytes absorbed by WRITE always leave different accumulators for odd `M`, and so do
a byte absorbed by WU8 and by WRITE (R128). -/
def Obligations.FixedWidthAndSliceAlwaysDiffer : Prop :=
  (∀ (s t u : State) (sd : Slot) (v : Word), Ready sd s → s.cfg.mult.getLsbD 0 = true →
    memRead s.win 0 8 = v → exec (.wu64 sd v) s = .next t → exec (.write sd 8) s = .next u →
    getAcc sd t = mix s.cfg.mult (getAcc sd s) ^^^ v ∧ getAcc sd u = mix s.cfg.mult (getAcc sd s + 8) ^^^ v ∧
      getAcc sd t ≠ getAcc sd u) ∧
  (∀ (s t u : State) (sd : Slot) (b : BitVec 8), Ready sd s → s.cfg.mult.getLsbD 0 = true →
    byteAt s.win 0 = b → exec (.wu8 sd b) s = .next t → exec (.write sd 1) s = .next u →
    getAcc sd t = mix s.cfg.mult (getAcc sd s) ^^^ b.setWidth 64 ∧
      getAcc sd u = mix s.cfg.mult (getAcc sd s + 1) ^^^ b.setWidth 64 ∧ getAcc sd t ≠ getAcc sd u)

/-! ## WRITE (43_slice_write.md) -/

/-- The encoding of WRITE and its two checks in their order, for every length (R140). -/
def Obligations.WriteChecksItsSlotLikeEveryWrite : Prop :=
  (∀ (nsess : Nat) (sd : Slot) (opnd : BitVec 128),
    decode nsess ⟨cwOf 0x7000 sd, opnd⟩ =
      if sd.val < nsess then .ok (.write sd (opnd.extractLsb' 0 64)) else .error .slotRange) ∧
  (∀ (s : State) (sd : Slot) (len : Word), Slot.inRange s.cfg.nsess sd = false →
    exec (.write sd len) s = raise .illegalCommand s) ∧
  (∀ (s : State) (sd : Slot) (len : Word), Slot.inRange s.cfg.nsess sd = true → isLive sd s = false →
    exec (.write sd len) s = raise .notLive s)

/-- R149 (with R142 to R145): WRITE of at most 8 bytes completes with the closed form of its band, `a1` being the accumulator
plus the length, and changes no other register but the slice processor's. -/
def Obligations.ShortSlicesHaveTheirClosedForms : Prop :=
  ∀ (s : State) (sd : Slot) (len : Word), Ready sd s → len ≤ 8 →
    ∃ t, exec (.write sd len) s = .next t ∧
      SliceWritten sd
        (if len = 0 then getAcc sd s
         else if len = 1 then mix s.cfg.mult (getAcc sd s + len) ^^^ (byteAt s.win 0).setWidth 64
         else if len ≤ 3 then
           mix s.cfg.mult (getAcc sd s + len) ^^^ (memRead s.win 0 2 ||| (memRead s.win (len - 2) 2 <<< 16))
         else mix s.cfg.mult (getAcc sd s + len) ^^^ (memRead s.win 0 4 ||| (memRead s.win (len - 4) 4 <<< 32)))
        s t ∧
      (len = 8 → getAcc sd t = mix s.cfg.mult (getAcc sd s + 8) ^^^ memRead s.win 0 8)

/-- R148: WRITE of 9 bytes or more completes with the closed form of the bulk path, and changes no other register but the
slice processor's. -/
def Obligations.LongSlicesHaveTheirClosedForm : Prop :=
  ∀ (s : State) (sd : Slot) (len : Word), Ready sd s → 9 ≤ len →
    ∃ t, exec (.write sd len) s = .next t ∧
      SliceWritten sd
        (mix s.cfg.mult
            ((getAcc sd s + len) ^^^
              xorOfTerms s.cfg (getAcc sd s + len) (fun i => memRead s.win (BitVec.ofNat 64 (8 * i)) 8)
                (bulkIterations len + 1)) ^^^
          memRead s.win (len - 8) 8)
        s t

/-- The hidden registers that a WRITE leaves. A short band leaves `key`, `pos` and `rem` alone; the bulk path leaves, after
`n = floor((len - 9) / 8)` iterations, `pos = 8n`, `9 <= rem <= 16`, and the key advanced `n + 1` times (R147, R157 to R161).
That the atomic WRITE leaves them as its micro-steps do, and the register `cur`, are the model's (log entries 7 and 10). -/
def Obligations.WriteLeavesTheHiddenRegisters : Prop :=
  ∀ (s : State) (sd : Slot) (len : Word), Ready sd s →
    ∃ t, exec (.write sd len) s = .next t ∧ t.len = len ∧ t.cur = sd ∧
      (len ≤ 8 → t.key = s.key ∧ t.pos = s.pos ∧ t.rem = s.rem) ∧
      (9 ≤ len →
        t.pos.toNat = 8 * bulkIterations len ∧ t.pos.toNat + t.rem.toNat = len.toNat ∧
        9 ≤ t.rem.toNat ∧ t.rem.toNat ≤ 16 ∧
        t.key = getAcc sd s + len + BitVec.ofNat 64 (bulkIterations len + 1) * s.cfg.inc)

/-- R164: two slices of different lengths in the bands 1, 2 and 4 that pack to the same word leave different accumulators for
odd `M`; in particular 1 and 2 zero bytes do. -/
def Obligations.SliceLengthAlwaysShows : Prop :=
  (∀ (s t u : State) (sd : Slot) (l1 l2 : Word) (m1 m2 : Memory), Ready sd s → s.cfg.mult.getLsbD 0 = true →
    1 ≤ l1 → l1 ≤ 8 → 1 ≤ l2 → l2 ≤ 8 → l1 ≠ l2 → packedWord m1 l1 = packedWord m2 l2 →
    exec (.write sd l1) (withWindow m1 s) = .next t → exec (.write sd l2) (withWindow m2 s) = .next u →
    getAcc sd t ≠ getAcc sd u) ∧
  (∀ (s t u : State) (sd : Slot), Ready sd s → s.cfg.mult.getLsbD 0 = true →
    exec (.write sd 1) (withWindow [] s) = .next t → exec (.write sd 2) (withWindow [] s) = .next u →
    getAcc sd t = mix s.cfg.mult (getAcc sd s + 1) ∧ getAcc sd u = mix s.cfg.mult (getAcc sd s + 2) ∧
      getAcc sd t ≠ getAcc sd u ∧
      mix s.cfg.mult (getAcc sd t) ≠ mix s.cfg.mult (getAcc sd u)) ∧
  (mix Params.default.mult (0x4D186F7E81D4A3B2 + 1) = 0xCF15297D977647AB ∧
    mix Params.default.mult (0x4D186F7E81D4A3B2 + 2) = 0x0F68587AF70F819D)

/-- Two blocks whose XOR is the XOR of the two keys they meet leave the same accumulator and key in either order: order
sensitivity is no theorem of the rules (R166). -/
def Obligations.ExchangedBlocksCanCollide : Prop :=
  ∀ (p : Params) (a k b0 b1 : Word), b0 ^^^ b1 = k ^^^ (k + p.inc) →
    ordRun p (fun i => if i = 0 then b0 else b1) 2 (a, k) = ordRun p (fun i => if i = 0 then b1 else b0) 2 (a, k)

/-! ## The slice processor's micro-steps (43_slice_write.md section 2) -/

/-- An idle block accepts a legal WRITE on a live slot: it latches the length and goes to `LENADD`; an illegal command word or a
dead slot does not start the processor and is answered by its fault (R151). That `cur` latches `sd` is the model's (log
entry 7). -/
def Obligations.AcceptanceStartsTheSliceProcessor : Prop :=
  ∀ (s : State) (c : Command) (rest : List HostInput), s.ph = .idle → s.inputs = .stepped c :: rest →
    (∀ (sd : Slot) (len : Word), decode s.cfg.nsess c.words = .ok (.write sd len) → isLive sd s = true →
      len = c.words.opnd.extractLsb' 0 64 ∧
      step s = .next { openCommand c { s with inputs := rest } with cur := sd, len := len, ph := .lenadd }) ∧
    (∀ (sd : Slot) (len : Word), decode s.cfg.nsess c.words = .ok (.write sd len) → isLive sd s = false →
      step s = raise .notLive (openCommand c { s with inputs := rest })) ∧
    ((∀ i, decode s.cfg.nsess c.words ≠ .ok i) →
      step s = raise .illegalCommand (openCommand c { s with inputs := rest })) ∧
    (∀ t, step s = .next t → t.rspValid = true → t.ph = .idle)

/-- R152 to R161: the effect of each micro-step, for reads inside the window; and the bounds with which `LOOP`, `FRONT` and
`TAIL` are entered. -/
def Obligations.MicroStepsHaveTheirEffects : Prop :=
  (∀ s : State, Inv s →
    (s.ph = .loop → 16 < s.rem) ∧ (s.ph = .front → 9 ≤ s.rem ∧ s.rem ≤ 16) ∧
    (s.ph = .tail → s.len - 8 = s.pos + s.rem - 8)) ∧
  ∀ s : State, (∀ r ∈ windowReads s, r.off.toNat + r.bytes ≤ s.len.toNat) →
    (s.ph = .lenadd →
      microStep s = .next (setAcc s.cur (getAcc s.cur s + s.len) { s with ph := .dispatch })) ∧
    (s.ph = .dispatch →
      microStep s = .next { s with
        ph := if s.len = 0 then .done else if s.len = 1 then .b1 else if 2 ≤ s.len ∧ s.len ≤ 3 then .b2
              else if 4 ≤ s.len ∧ s.len ≤ 8 then .b4 else .seed }) ∧
    (s.ph = .b1 →
      microStep s = .next (setAcc s.cur (update s.cfg.mult (getAcc s.cur s) (memRead s.win 0 1)) { s with ph := .done })) ∧
    (s.ph = .b2 →
      microStep s = .next (setAcc s.cur
        (update s.cfg.mult (getAcc s.cur s)
          (((memRead s.win (s.len - 2) 2).extractLsb' 0 16 ++ (memRead s.win 0 2).extractLsb' 0 16).setWidth 64))
        { s with ph := .done })) ∧
    (s.ph = .b4 →
      microStep s = .next (setAcc s.cur
        (update s.cfg.mult (getAcc s.cur s)
          ((memRead s.win (s.len - 4) 4).extractLsb' 0 32 ++ (memRead s.win 0 4).extractLsb' 0 32))
        { s with ph := .done })) ∧
    (s.ph = .seed →
      microStep s = .next { s with
        key := getAcc s.cur s, pos := 0, rem := s.len, ph := if 16 < s.len then .loop else .front }) ∧
    (s.ph = .loop →
      microStep s = .next (setAcc s.cur (getAcc s.cur s ^^^ mix s.cfg.mult (memRead s.win s.pos 8 ^^^ s.key))
        { s with key := s.key + s.cfg.inc, pos := s.pos + 8, rem := s.rem - 8,
                 ph := if 16 < s.rem - 8 then .loop else .front })) ∧
    (s.ph = .front →
      microStep s = .next (setAcc s.cur (getAcc s.cur s ^^^ mix s.cfg.mult (memRead s.win s.pos 8 ^^^ s.key))
        { s with key := s.key + s.cfg.inc, ph := .tail })) ∧
    (s.ph = .tail →
      microStep s = .next (setAcc s.cur
        (update s.cfg.mult (getAcc s.cur s) (memRead s.win (s.len - 8) 8)) { s with ph := .done })) ∧
    (s.ph = .done → microStep s = .next { s with rsp := ⟨.ok, 0⟩, rspValid := true, ph := .idle })

/-- R162: no phase is entered except as the rules say. A micro-step, and a step of a busy block unless it takes a reset, leads to
the one phase that the rules name under their conditions; a step of an idle block leaves it only by accepting a legal WRITE on
a live slot; reset forces `IDLE` from any phase. -/
def Obligations.NoOtherPhaseTransitionsExist : Prop :=
  (∀ s t : State, microStep s = .next t → t.ph = phaseAfter s) ∧
  (∀ s t : State, s.ph ≠ .idle → (∀ rest, s.inputs ≠ .reset :: rest) → step s = .next t → t.ph = phaseAfter s) ∧
  (∀ s t : State, s.ph = .idle → step s = .next t →
    t.ph = .idle ∨ (t.ph = .lenadd ∧ ∃ c rest sd len, s.inputs = .stepped c :: rest ∧
      decode s.cfg.nsess c.words = .ok (.write sd len) ∧ isLive sd s = true)) ∧
  (∀ (s : State) (rest : List HostInput), s.inputs = .reset :: rest → ∃ t, step s = .next t ∧ t.ph = .idle)

/-- The micro-steps from acceptance to `DONE` are as many as R163 counts, do not end earlier, and leave exactly the state that
the atomic WRITE leaves; the phase and the accumulator after each of them depend on the accumulator, the length and the window
alone. That the hidden registers agree as well, and not the accumulator alone, is the model's (log entry 10). -/
def Obligations.MicroStepsAgreeWithTheAtomicWrite : Prop :=
  (∀ (s : State) (sd : Slot) (len : Word), s.ph = .idle → Ready sd s →
    ∃ a, acceptWrite sd len s = .next a ∧
      microRun (microSteps len) a = exec (.write sd len) s ∧
      ∀ k, k < microSteps len → ∃ u, microRun k a = .next u ∧ u.ph ≠ .idle) ∧
  (∀ (s s' a a' : State) (sd sd' : Slot) (len : Word) (k : Nat), Ready sd s → Ready sd' s' → s'.cfg = s.cfg →
    s'.win = s.win → getAcc sd' s' = getAcc sd s → acceptWrite sd len s = .next a → acceptWrite sd' len s' = .next a' →
    k ≤ microSteps len →
    ∃ u u', microRun k a = .next u ∧ microRun k a' = .next u' ∧ u'.ph = u.ph ∧ getAcc sd' u' = getAcc sd u)

/-! ## All commands: checks, frames, independence (10_state.md, 60_exceptions.md) -/

/-- R195: every command ends in a response, and once it has passed the two checks it runs to completion with status OK,
whatever its operands, its window and the arithmetic. -/
def Obligations.NoOtherFaultExists : Prop :=
  (∀ (i : Instr) (s : State), ∃ t, exec i s = .next t ∧ t.rspValid = true) ∧
  (∀ (i : Instr) (s : State), i.wf s.cfg.nsess = true → (∀ n, i.needs = some n → isLive n s = true) →
    ∃ t, exec i s = .next t ∧ t.rsp.status = .ok)

/-- R192: a legal command raises NotLive exactly when it needs a session and finds none; INIT needs none and COPY needs its
source only. -/
def Obligations.NotLiveIsRaisedExactlyWithoutASession : Prop :=
  (∀ (i : Instr) (s : State), i.wf s.cfg.nsess = true →
    (exec i s = raise .notLive s ↔ ∃ n, i.needs = some n ∧ isLive n s = false)) ∧
  (∀ (sd : Slot) (k0 k1 : Word), (Instr.init sd k0 k1).needs = none) ∧
  (∀ sd ss : Slot, (Instr.copy sd ss).needs = some ss) ∧
  (∀ i : Instr, i.opcode ≠ .init → i.opcode ≠ .copy → i.needs = some i.dest)

/-- R193: a fault changes no accumulator, no flag and no hidden register: the state after is the state before but for the
response `(code, 0)`; a faulted WRITE does not start the slice processor; and the block takes the next command. -/
def Obligations.FaultsChangeNothingButTheResponse : Prop :=
  (∀ (i : Instr) (s t : State), exec i s = .next t → t.rsp.status ≠ .ok →
    t = { s with rsp := ⟨t.rsp.status, 0⟩, rspValid := true }) ∧
  (∀ (c : Command) (s t : State), startCommand c s = .next t → t.rspValid = true → t.rsp.status ≠ .ok →
    t = { s with win := c.win, rsp := ⟨t.rsp.status, 0⟩, rspValid := true } ∧ cmdReady t = cmdReady s)

/-- R194: legality is checked before the flag: an illegal command reports IllegalCommand, live slots or not. -/
def Obligations.LegalityIsCheckedBeforeTheFlag : Prop :=
  (∀ (s : State) (c : Command), (∀ i, decode s.cfg.nsess c.words ≠ .ok i) →
    transact c s = raise .illegalCommand (openCommand c s) ∧
      startCommand c s = raise .illegalCommand (openCommand c s)) ∧
  (∀ (i : Instr) (s : State), i.wf s.cfg.nsess = false → exec i s = raise .illegalCommand s)

/-- R23: a command changes the accumulator and flag of at most its destination slot; what it leaves there and answers depends
on that slot and, for COPY, on its source alone; after COPY the two slots hold equal values. -/
def Obligations.SlotsAreIndependent : Prop :=
  (∀ (i : Instr) (s t : State), exec i s = .next t → OtherSlotsFrame i.dest s t) ∧
  (∀ (i : Instr) (s s' t t' : State), s'.cfg = s.cfg → s'.win = s.win → SameSlot i.dest s s' →
    (∀ n, i.needs = some n → SameSlot n s s') → exec i s = .next t → exec i s' = .next t' →
    SameSlot i.dest t t' ∧ t'.rsp = t.rsp) ∧
  (∀ (s t : State) (sd ss : Slot), exec (.copy sd ss) s = .next t → t.rsp.status = .ok →
    getAcc sd t = getAcc ss t)

/-- No command changes the constants, the phase, the window or the host's moves, and none but WRITE changes a hidden register;
FINISH changes no slot either (R30, R41, R180). -/
def Obligations.CommandsKeepTheRestOfTheMachine : Prop :=
  (∀ (i : Instr) (s t : State), exec i s = .next t → CommandFrame s t) ∧
  (∀ (i : Instr) (s t : State), exec i s = .next t → i.opcode ≠ .write → HiddenFrame s t) ∧
  (∀ (s t : State) (sd : Slot), exec (.finish sd) s = .next t → t.acc = s.acc ∧ t.live = s.live)

/-- A command never clears a flag, and sets one only by INIT or by COPY from a live slot (R22). -/
def Obligations.OnlyInitAndCopyMakeSlotsLive : Prop :=
  ∀ (i : Instr) (s t : State) (j : Slot), exec i s = .next t →
    (isLive j s = true → isLive j t = true) ∧
    (isLive j t = true → isLive j s = false →
      j = i.dest ∧ (i.opcode = .init ∨ (i.opcode = .copy ∧ ∃ n, i.needs = some n ∧ isLive n s = true)))

/-- R28: the response data is 0 for every command but a successful FINISH; the status codes, of which 3 is never produced; and
no command reads the response before it. -/
def Obligations.ResponseDataIsZeroOrTheDigest : Prop :=
  (∀ (i : Instr) (s t : State), exec i s = .next t →
    ((i.opcode ≠ .finish ∨ t.rsp.status ≠ .ok) → t.rsp.data = 0) ∧
    ((i.opcode = .finish ∧ t.rsp.status = .ok) → t.rsp.data = mix s.cfg.mult (getAcc i.dest s)) ∧
    t.rspValid = true ∧ rspStatus t ≠ 3) ∧
  (statusCode .ok = 0 ∧ statusCode .illegalCommand = 1 ∧ statusCode .notLive = 2) ∧
  (∀ (i : Instr) (s : State) (r : Response) (b : Bool), exec i { s with rsp := r, rspValid := b } = exec i s)

/-- R113: without an INIT, no command of any sequence succeeds where no slot is live. -/
def Obligations.NothingSucceedsBeforeTheFirstInit : Prop :=
  ∀ (cs : List (Instr × Memory)) (s : State), NothingLive s → (∀ c ∈ cs, c.1.opcode ≠ .init) →
    (∃ t, runCommands cs s = .next t ∧ NothingLive t) ∧ ∀ r ∈ responses cs s, r.status ≠ .ok

/-- Slots with equal sessions stay equal under the same commands (COPY apart), give the same responses, and what is done on
one does not affect the other (R115). -/
def Obligations.EqualSlotsStayEqual : Prop :=
  ∀ (cs : List (Instr × Memory)) (s : State) (a b : Slot), a ≠ b → Ready a s → Ready b s →
    getAcc a s = getAcc b s → (∀ c ∈ cs, c.1.opcode ≠ .copy) →
    ∃ t u, runCommands (retargetAll a cs) s = .next t ∧ runCommands (retargetAll b cs) s = .next u ∧
      getAcc a t = getAcc b u ∧ responses (retargetAll a cs) s = responses (retargetAll b cs) s ∧
      getAcc b t = getAcc b s ∧ getAcc a u = getAcc a s

/-- No value of a slot that holds no session and no hidden register ever reaches a response: blocks that agree on their flags
and on the accumulators of their live slots answer every sequence of commands alike (R183, R210). -/
def Obligations.UnspecifiedValuesNeverReachAResponse : Prop :=
  ∀ (cs : List (Instr × Memory)) (s s' : State), SameSessions s s' → responses cs s' = responses cs s

/-! ## The step, the host's moves and reset (30_encoding.md R60, 70_reset_and_hazards.md) -/

/-- A step runs the decoded command: an idle block takes the command presented, with its window at the window port and the
last response gone, and executes it; an illegal one raises IllegalCommand (R60, R65). The last clause rests on log entry 4, the
model's choice: the numbering of the table's bits, the empty window, and that `withFetchWord` makes a busy block idle. -/
def Obligations.AStepRunsTheDecodedCommand : Prop :=
  (∀ (s : State) (c : Command) (rest : List HostInput) (i : Instr), s.ph = .idle → s.inputs = .command c :: rest →
    decode s.cfg.nsess c.words = .ok i →
    step s = exec i { s with inputs := rest, win := c.win, rspValid := false }) ∧
  (∀ (s : State) (c : Command) (rest : List HostInput), s.ph = .idle → s.inputs = .command c :: rest →
    (∀ i, decode s.cfg.nsess c.words ≠ .ok i) →
    step s = raise .illegalCommand { s with inputs := rest, win := c.win, rspValid := false }) ∧
  (∀ (s : State) (c : Command) (rest : List HostInput) (i : Instr), s.ph = .idle → s.inputs = .stepped c :: rest →
    decode s.cfg.nsess c.words = .ok i → i.opcode ≠ .write →
    step s = exec i { s with inputs := rest, win := c.win, rspValid := false }) ∧
  (∀ (s : State) (nbits w : Nat) (i : Instr), decode s.cfg.nsess (wordsOfTable nbits w) = .ok i →
    step (s.withFetchWord nbits w) = exec i { s with ph := .idle, win := [], rspValid := false })

/-- A busy block accepts no command: what the host presents stays presented while the WRITE makes its micro-step; with no move
of the host left, or a tick, it makes its micro-step as well (R150, R162, R215). An idle block with nothing presented keeps its
state (R204, R212). That the host's moves are a list with ticks is the model's choice (log entry 5). -/
def Obligations.BusyBlocksAcceptNoCommandAndIdleBlocksWait : Prop :=
  (∀ (s : State) (c : Command) (rest : List HostInput), s.ph ≠ .idle →
    (s.inputs = .command c :: rest ∨ s.inputs = .stepped c :: rest) →
    step s = microStep s ∧ ∀ t, step s = .next t → t.inputs = s.inputs) ∧
  (∀ s : State, s.ph ≠ .idle → s.inputs = [] → step s = microStep s) ∧
  (∀ (s : State) (rest : List HostInput), s.ph ≠ .idle → s.inputs = .tick :: rest →
    step s = microStep { s with inputs := rest }) ∧
  (∀ s : State, s.ph = .idle → s.inputs = [] → step s = .next s) ∧
  (∀ (s : State) (rest : List HostInput), s.ph = .idle → s.inputs = .tick :: rest →
    step s = .next { s with inputs := rest })

/-- R210, R211: reset, from any phase, clears every flag, makes the processor idle and leaves no response, so that every
command that reads an accumulator then raises NotLive; the constants and the host's later moves stay. -/
def Obligations.ResetLosesEverySessionAndAnyCommandInProgress : Prop :=
  ∀ (s : State) (rest : List HostInput), s.inputs = .reset :: rest →
    ∃ t, step s = .next t ∧ NothingLive t ∧ t.ph = .idle ∧ cmdReady t = true ∧ t.rspValid = false ∧
      t.rsp = ⟨.ok, 0⟩ ∧ t.cfg = s.cfg ∧ t.inputs = rest ∧
      (∀ (i : Instr) (n : Slot), i.needs = some n → i.wf t.cfg.nsess = true → exec i t = raise .notLive t)

/-- The state after power-on: no slot is live, the processor is idle, and the response is `(OK, 0)` (R34). That nothing is
presented is the model's choice (log entry 5). -/
def Obligations.PowerOnState : Prop :=
  NothingLive State.reset ∧ State.reset.ph = .idle ∧ State.reset.rsp = ⟨.ok, 0⟩ ∧ State.reset.inputs = []

/-- The reset state meets the invariant. -/
def Obligations.ResetMeetsTheInvariant : Prop := Inv State.reset

/-- Every step keeps the invariant, from every state that meets it. -/
def Obligations.EveryStepKeepsTheInvariant : Prop := ∀ s t : State, Inv s → step s = .next t → Inv t

/-- From every state that meets the invariant a step answers a next state: no fault and no refusal is ever reached (R48,
R195). -/
def Obligations.NoStepStopsUnderTheInvariant : Prop := ∀ s : State, Inv s → ∃ t, step s = .next t

/-- No step changes the constants, and `M`, `INC`, `NSESS` stay as they are through every run and every reset (R30, R34). -/
def Obligations.ConstantsNeverChange : Prop := ∀ s t : State, step s = .next t → t.cfg = s.cfg
end

