-- ==== Sys2Proof/Laws/Encoding.lean ====
section
/-!
SUPPORT. Small facts of the encoding (30_encoding.md R61, R62): the fields of a command word put together from fields, and the two halves of an
operand put together from words.
-/

namespace Sys2Proof

/-- The fields of a command word put together from its fields. -/
theorem fields_of_append (op : BitVec 4) (sd ss : Slot) :
    opField (op ++ BitVec.ofFin (w := 4) sd ++ BitVec.ofFin (w := 4) ss ++ (0 : BitVec 4)) = op ∧
    sdField (op ++ BitVec.ofFin (w := 4) sd ++ BitVec.ofFin (w := 4) ss ++ (0 : BitVec 4)) = sd ∧
    ssField (op ++ BitVec.ofFin (w := 4) sd ++ BitVec.ofFin (w := 4) ss ++ (0 : BitVec 4)) = ss ∧
    rsvField (op ++ BitVec.ofFin (w := 4) sd ++ BitVec.ofFin (w := 4) ss ++ (0 : BitVec 4)) = 0 := by
  revert op sd ss
  decide

/-- The operation code of an operation selects it (R64). -/
theorem ofCode_code (op : Opcode) : Opcode.ofCode op.code = some op := by cases op <;> rfl

/-- The low word of an operand made of two words. -/
theorem opndLow_append (hi lo : Word) : opndLow (hi ++ lo) = lo := by
  apply BitVec.eq_of_toNat_eq
  simp only [opndLow, BitVec.extractLsb'_toNat, BitVec.toNat_append, Nat.shiftRight_zero]
  rw [← Nat.shiftLeft_add_eq_or_of_lt lo.isLt, Nat.shiftLeft_eq]
  have := lo.isLt
  omega

/-- The high word of an operand made of two words. -/
theorem opndHigh_append (hi lo : Word) : opndHigh (hi ++ lo) = hi := by
  apply BitVec.eq_of_toNat_eq
  simp only [opndHigh, BitVec.extractLsb'_toNat, BitVec.toNat_append]
  rw [← Nat.shiftLeft_add_eq_or_of_lt lo.isLt, Nat.shiftLeft_eq, Nat.shiftRight_eq_div_pow]
  have := lo.isLt
  have := hi.isLt
  omega

/-- A value widened to the operand's width is read back from its low bits (R62, R63). -/
theorem extract_setWidth {w : Nat} (hw : w ≤ 128) (v : BitVec w) : (v.setWidth 128).extractLsb' 0 w = v := by
  apply BitVec.eq_of_toNat_eq
  simp only [BitVec.extractLsb'_toNat, BitVec.toNat_setWidth, Nat.shiftRight_zero]
  have h : v.toNat < 2 ^ 128 := v.isLt.trans_le (Nat.pow_le_pow_right (by decide) hw)
  rw [Nat.mod_eq_of_lt h, Nat.mod_eq_of_lt v.isLt]

/-- The low word of an operand widened from one word. -/
theorem opndLow_setWidth (v : Word) : opndLow (v.setWidth 128) = v := extract_setWidth (by decide) v

end Sys2Proof
end

