-- ==== Sys2Proof/Laws/State.lean ====
section
/-!
SUPPORT. What each update of the state leaves in each field, so that no later proof unfolds a record update; and how reads of an
accumulator or a flag see the updates.
-/

namespace Sys2Proof.Machine

/-! ## One lemma per field per update -/

@[simp] theorem setAcc_cfg (sd : Slot) (v : Word) (s : State) : (setAcc sd v s).cfg = s.cfg := rfl
@[simp] theorem setAcc_acc (sd : Slot) (v : Word) (s : State) : (setAcc sd v s).acc = s.acc.set sd.val v sd.isLt := rfl
@[simp] theorem setAcc_live (sd : Slot) (v : Word) (s : State) : (setAcc sd v s).live = s.live := rfl
@[simp] theorem setAcc_ph (sd : Slot) (v : Word) (s : State) : (setAcc sd v s).ph = s.ph := rfl
@[simp] theorem setAcc_len (sd : Slot) (v : Word) (s : State) : (setAcc sd v s).len = s.len := rfl
@[simp] theorem setAcc_pos (sd : Slot) (v : Word) (s : State) : (setAcc sd v s).pos = s.pos := rfl
@[simp] theorem setAcc_rem (sd : Slot) (v : Word) (s : State) : (setAcc sd v s).rem = s.rem := rfl
@[simp] theorem setAcc_key (sd : Slot) (v : Word) (s : State) : (setAcc sd v s).key = s.key := rfl
@[simp] theorem setAcc_cur (sd : Slot) (v : Word) (s : State) : (setAcc sd v s).cur = s.cur := rfl
@[simp] theorem setAcc_win (sd : Slot) (v : Word) (s : State) : (setAcc sd v s).win = s.win := rfl
@[simp] theorem setAcc_rsp (sd : Slot) (v : Word) (s : State) : (setAcc sd v s).rsp = s.rsp := rfl
@[simp] theorem setAcc_rspValid (sd : Slot) (v : Word) (s : State) : (setAcc sd v s).rspValid = s.rspValid := rfl
@[simp] theorem setAcc_inputs (sd : Slot) (v : Word) (s : State) : (setAcc sd v s).inputs = s.inputs := rfl
@[simp] theorem setAcc_free (sd : Slot) (v : Word) (s : State) : (setAcc sd v s).free = s.free := rfl

@[simp] theorem setLive_cfg (sd : Slot) (s : State) : (setLive sd s).cfg = s.cfg := rfl
@[simp] theorem setLive_acc (sd : Slot) (s : State) : (setLive sd s).acc = s.acc := rfl
@[simp] theorem setLive_live (sd : Slot) (s : State) : (setLive sd s).live = s.live.set sd.val true sd.isLt := rfl
@[simp] theorem setLive_ph (sd : Slot) (s : State) : (setLive sd s).ph = s.ph := rfl
@[simp] theorem setLive_len (sd : Slot) (s : State) : (setLive sd s).len = s.len := rfl
@[simp] theorem setLive_pos (sd : Slot) (s : State) : (setLive sd s).pos = s.pos := rfl
@[simp] theorem setLive_rem (sd : Slot) (s : State) : (setLive sd s).rem = s.rem := rfl
@[simp] theorem setLive_key (sd : Slot) (s : State) : (setLive sd s).key = s.key := rfl
@[simp] theorem setLive_cur (sd : Slot) (s : State) : (setLive sd s).cur = s.cur := rfl
@[simp] theorem setLive_win (sd : Slot) (s : State) : (setLive sd s).win = s.win := rfl
@[simp] theorem setLive_rsp (sd : Slot) (s : State) : (setLive sd s).rsp = s.rsp := rfl
@[simp] theorem setLive_rspValid (sd : Slot) (s : State) : (setLive sd s).rspValid = s.rspValid := rfl
@[simp] theorem setLive_inputs (sd : Slot) (s : State) : (setLive sd s).inputs = s.inputs := rfl
@[simp] theorem setLive_free (sd : Slot) (s : State) : (setLive sd s).free = s.free := rfl

@[simp] theorem respond_cfg (st : Status) (d : Word) (s : State) : (respond st d s).cfg = s.cfg := rfl
@[simp] theorem respond_acc (st : Status) (d : Word) (s : State) : (respond st d s).acc = s.acc := rfl
@[simp] theorem respond_live (st : Status) (d : Word) (s : State) : (respond st d s).live = s.live := rfl
@[simp] theorem respond_ph (st : Status) (d : Word) (s : State) : (respond st d s).ph = s.ph := rfl
@[simp] theorem respond_len (st : Status) (d : Word) (s : State) : (respond st d s).len = s.len := rfl
@[simp] theorem respond_pos (st : Status) (d : Word) (s : State) : (respond st d s).pos = s.pos := rfl
@[simp] theorem respond_rem (st : Status) (d : Word) (s : State) : (respond st d s).rem = s.rem := rfl
@[simp] theorem respond_key (st : Status) (d : Word) (s : State) : (respond st d s).key = s.key := rfl
@[simp] theorem respond_cur (st : Status) (d : Word) (s : State) : (respond st d s).cur = s.cur := rfl
@[simp] theorem respond_win (st : Status) (d : Word) (s : State) : (respond st d s).win = s.win := rfl
@[simp] theorem respond_rsp (st : Status) (d : Word) (s : State) : (respond st d s).rsp = ⟨st, d⟩ := rfl
@[simp] theorem respond_rspValid (st : Status) (d : Word) (s : State) : (respond st d s).rspValid = true := rfl
@[simp] theorem respond_inputs (st : Status) (d : Word) (s : State) : (respond st d s).inputs = s.inputs := rfl
@[simp] theorem respond_free (st : Status) (d : Word) (s : State) : (respond st d s).free = s.free := rfl

@[simp] theorem openCommand_cfg (c : Command) (s : State) : (openCommand c s).cfg = s.cfg := rfl
@[simp] theorem openCommand_acc (c : Command) (s : State) : (openCommand c s).acc = s.acc := rfl
@[simp] theorem openCommand_live (c : Command) (s : State) : (openCommand c s).live = s.live := rfl
@[simp] theorem openCommand_ph (c : Command) (s : State) : (openCommand c s).ph = s.ph := rfl
@[simp] theorem openCommand_len (c : Command) (s : State) : (openCommand c s).len = s.len := rfl
@[simp] theorem openCommand_pos (c : Command) (s : State) : (openCommand c s).pos = s.pos := rfl
@[simp] theorem openCommand_rem (c : Command) (s : State) : (openCommand c s).rem = s.rem := rfl
@[simp] theorem openCommand_key (c : Command) (s : State) : (openCommand c s).key = s.key := rfl
@[simp] theorem openCommand_cur (c : Command) (s : State) : (openCommand c s).cur = s.cur := rfl
@[simp] theorem openCommand_win (c : Command) (s : State) : (openCommand c s).win = c.win := rfl
@[simp] theorem openCommand_rsp (c : Command) (s : State) : (openCommand c s).rsp = s.rsp := rfl
@[simp] theorem openCommand_rspValid (c : Command) (s : State) : (openCommand c s).rspValid = false := rfl
@[simp] theorem openCommand_inputs (c : Command) (s : State) : (openCommand c s).inputs = s.inputs := rfl
@[simp] theorem openCommand_free (c : Command) (s : State) : (openCommand c s).free = s.free := rfl

@[simp] theorem commitSlice_cfg (sd : Slot) (l : Word) (r : SliceRegs) (s : State) : (commitSlice sd l r s).cfg = s.cfg := rfl
@[simp] theorem commitSlice_acc (sd : Slot) (l : Word) (r : SliceRegs) (s : State) : (commitSlice sd l r s).acc = s.acc.set sd.val r.a sd.isLt := rfl
@[simp] theorem commitSlice_live (sd : Slot) (l : Word) (r : SliceRegs) (s : State) : (commitSlice sd l r s).live = s.live := rfl
@[simp] theorem commitSlice_ph (sd : Slot) (l : Word) (r : SliceRegs) (s : State) : (commitSlice sd l r s).ph = s.ph := rfl
@[simp] theorem commitSlice_len (sd : Slot) (l : Word) (r : SliceRegs) (s : State) : (commitSlice sd l r s).len = l := rfl
@[simp] theorem commitSlice_pos (sd : Slot) (l : Word) (r : SliceRegs) (s : State) : (commitSlice sd l r s).pos = r.pos := rfl
@[simp] theorem commitSlice_rem (sd : Slot) (l : Word) (r : SliceRegs) (s : State) : (commitSlice sd l r s).rem = r.rem := rfl
@[simp] theorem commitSlice_key (sd : Slot) (l : Word) (r : SliceRegs) (s : State) : (commitSlice sd l r s).key = r.key := rfl
@[simp] theorem commitSlice_cur (sd : Slot) (l : Word) (r : SliceRegs) (s : State) : (commitSlice sd l r s).cur = sd := rfl
@[simp] theorem commitSlice_win (sd : Slot) (l : Word) (r : SliceRegs) (s : State) : (commitSlice sd l r s).win = s.win := rfl
@[simp] theorem commitSlice_rsp (sd : Slot) (l : Word) (r : SliceRegs) (s : State) : (commitSlice sd l r s).rsp = s.rsp := rfl
@[simp] theorem commitSlice_rspValid (sd : Slot) (l : Word) (r : SliceRegs) (s : State) : (commitSlice sd l r s).rspValid = s.rspValid := rfl
@[simp] theorem commitSlice_inputs (sd : Slot) (l : Word) (r : SliceRegs) (s : State) : (commitSlice sd l r s).inputs = s.inputs := rfl
@[simp] theorem commitSlice_free (sd : Slot) (l : Word) (r : SliceRegs) (s : State) : (commitSlice sd l r s).free = s.free := rfl

@[simp] theorem withWindow_cfg (m : Memory) (s : State) : (withWindow m s).cfg = s.cfg := rfl
@[simp] theorem withWindow_acc (m : Memory) (s : State) : (withWindow m s).acc = s.acc := rfl
@[simp] theorem withWindow_live (m : Memory) (s : State) : (withWindow m s).live = s.live := rfl
@[simp] theorem withWindow_ph (m : Memory) (s : State) : (withWindow m s).ph = s.ph := rfl
@[simp] theorem withWindow_len (m : Memory) (s : State) : (withWindow m s).len = s.len := rfl
@[simp] theorem withWindow_pos (m : Memory) (s : State) : (withWindow m s).pos = s.pos := rfl
@[simp] theorem withWindow_rem (m : Memory) (s : State) : (withWindow m s).rem = s.rem := rfl
@[simp] theorem withWindow_key (m : Memory) (s : State) : (withWindow m s).key = s.key := rfl
@[simp] theorem withWindow_cur (m : Memory) (s : State) : (withWindow m s).cur = s.cur := rfl
@[simp] theorem withWindow_win (m : Memory) (s : State) : (withWindow m s).win = m := rfl
@[simp] theorem withWindow_rsp (m : Memory) (s : State) : (withWindow m s).rsp = s.rsp := rfl
@[simp] theorem withWindow_rspValid (m : Memory) (s : State) : (withWindow m s).rspValid = s.rspValid := rfl
@[simp] theorem withWindow_inputs (m : Memory) (s : State) : (withWindow m s).inputs = s.inputs := rfl
@[simp] theorem withWindow_free (m : Memory) (s : State) : (withWindow m s).free = s.free := rfl

@[simp] theorem applyReset_cfg (s : State) : (applyReset s).cfg = s.cfg := rfl
@[simp] theorem applyReset_acc (s : State) : (applyReset s).acc = State.freeBank s.free := rfl
@[simp] theorem applyReset_live (s : State) : (applyReset s).live = Vector.replicate maxSlots false := rfl
@[simp] theorem applyReset_ph (s : State) : (applyReset s).ph = .idle := rfl
@[simp] theorem applyReset_len (s : State) : (applyReset s).len = Config.freeWord (s.free + 16) := rfl
@[simp] theorem applyReset_pos (s : State) : (applyReset s).pos = Config.freeWord (s.free + 17) := rfl
@[simp] theorem applyReset_rem (s : State) : (applyReset s).rem = Config.freeWord (s.free + 18) := rfl
@[simp] theorem applyReset_key (s : State) : (applyReset s).key = Config.freeWord (s.free + 19) := rfl
@[simp] theorem applyReset_cur (s : State) : (applyReset s).cur = 0 := rfl
@[simp] theorem applyReset_win (s : State) : (applyReset s).win = [] := rfl
@[simp] theorem applyReset_rsp (s : State) : (applyReset s).rsp = ⟨.ok, 0⟩ := rfl
@[simp] theorem applyReset_rspValid (s : State) : (applyReset s).rspValid = false := rfl
@[simp] theorem applyReset_inputs (s : State) : (applyReset s).inputs = s.inputs := rfl
@[simp] theorem applyReset_free (s : State) : (applyReset s).free = s.free + Config.freePerReset := rfl

/-! ## Reads of a slot -/

@[simp] theorem getAcc_setAcc_same (sd : Slot) (v : Word) (s : State) : getAcc sd (setAcc sd v s) = v := by
  simp [getAcc]

theorem getAcc_setAcc_other {j sd : Slot} (h : j ≠ sd) (v : Word) (s : State) :
    getAcc j (setAcc sd v s) = getAcc j s := by
  have hv : ¬ sd.val = j.val := fun e => h (Fin.ext e.symm)
  simp [getAcc, hv]

@[simp] theorem isLive_setLive_same (sd : Slot) (s : State) : isLive sd (setLive sd s) = true := by
  simp [isLive]

theorem isLive_setLive_other {j sd : Slot} (h : j ≠ sd) (s : State) : isLive j (setLive sd s) = isLive j s := by
  have hv : ¬ sd.val = j.val := fun e => h (Fin.ext e.symm)
  simp [isLive, hv]

@[simp] theorem getAcc_setLive (j sd : Slot) (s : State) : getAcc j (setLive sd s) = getAcc j s := rfl
@[simp] theorem isLive_setAcc (j sd : Slot) (v : Word) (s : State) : isLive j (setAcc sd v s) = isLive j s := rfl
@[simp] theorem getAcc_respond (j : Slot) (st : Status) (d : Word) (s : State) : getAcc j (respond st d s) = getAcc j s := rfl
@[simp] theorem isLive_respond (j : Slot) (st : Status) (d : Word) (s : State) : isLive j (respond st d s) = isLive j s := rfl
@[simp] theorem getAcc_openCommand (j : Slot) (c : Command) (s : State) : getAcc j (openCommand c s) = getAcc j s := rfl
@[simp] theorem isLive_openCommand (j : Slot) (c : Command) (s : State) : isLive j (openCommand c s) = isLive j s := rfl
@[simp] theorem getAcc_withWindow (j : Slot) (m : Memory) (s : State) : getAcc j (withWindow m s) = getAcc j s := rfl
@[simp] theorem isLive_withWindow (j : Slot) (m : Memory) (s : State) : isLive j (withWindow m s) = isLive j s := rfl

@[simp] theorem isLive_commitSlice (j sd : Slot) (l : Word) (r : SliceRegs) (s : State) :
    isLive j (commitSlice sd l r s) = isLive j s := rfl
@[simp] theorem getAcc_commitSlice_same (sd : Slot) (l : Word) (r : SliceRegs) (s : State) :
    getAcc sd (commitSlice sd l r s) = r.a := getAcc_setAcc_same sd r.a _
theorem getAcc_commitSlice_other {j sd : Slot} (h : j ≠ sd) (l : Word) (r : SliceRegs) (s : State) :
    getAcc j (commitSlice sd l r s) = getAcc j s := getAcc_setAcc_other h r.a _

@[simp] theorem isLive_applyReset (j : Slot) (s : State) : isLive j (applyReset s) = false := by
  simp [isLive]

/-- Two writes of one accumulator are the last of them. -/
@[simp] theorem setAcc_setAcc (sd : Slot) (v w : Word) (s : State) : setAcc sd w (setAcc sd v s) = setAcc sd w s := by
  simp [setAcc]

/-- Two responses are the last of them. -/
@[simp] theorem respond_respond (a b : Status) (x y : Word) (s : State) : respond b y (respond a x s) = respond b y s := rfl

end Sys2Proof.Machine
end

