-- ==== Sys2Proof/Laws/Ops.lean ====
section
/-!
SUPPORT. What each shared operation can do, said once. Later proofs cite these and do not unfold the operations.
-/

namespace Sys2Proof.Machine

/-- `onSlot` on a slot the block has. -/
theorem onSlot_inRange {sd : Slot} {s : State} (h : Slot.inRange s.cfg.nsess sd = true) (body : Answer) :
    onSlot sd s body = body := by simp [onSlot, h]

/-- `onSlot` on a slot the block lacks (R68). -/
theorem onSlot_outOfRange {sd : Slot} {s : State} (h : Slot.inRange s.cfg.nsess sd = false) (body : Answer) :
    onSlot sd s body = raise .illegalCommand s := by simp [onSlot, h]

/-- `onLive` on a live slot. -/
theorem onLive_live {sd : Slot} {s : State} (h : isLive sd s = true) (body : Word → Answer) :
    onLive sd s body = body (getAcc sd s) := by simp [onLive, h]

/-- `onLive` on a slot without a session (R192). -/
theorem onLive_dead {sd : Slot} {s : State} (h : isLive sd s = false) (body : Word → Answer) :
    onLive sd s body = raise .notLive s := by simp [onLive, h]

/-- `onSession` on a slot that is ready. -/
theorem onSession_ready {sd : Slot} {s : State} (h : Ready sd s) (body : Word → Answer) :
    onSession sd s body = body (getAcc sd s) := by
  rw [onSession, onSlot_inRange h.1, onLive_live h.2]

/-- `onSession` on a slot the block lacks. -/
theorem onSession_outOfRange {sd : Slot} {s : State} (h : Slot.inRange s.cfg.nsess sd = false) (body : Word → Answer) :
    onSession sd s body = raise .illegalCommand s := onSlot_outOfRange h _

/-- `onSession` on a slot of the block without a session. -/
theorem onSession_dead {sd : Slot} {s : State} (hr : Slot.inRange s.cfg.nsess sd = true) (h : isLive sd s = false)
    (body : Word → Answer) : onSession sd s body = raise .notLive s := by
  rw [onSession, onSlot_inRange hr, onLive_dead h]

/-- Everything `onSession` can answer: one of the two faults, or what its body answers on the accumulator of a slot that is
ready. -/
theorem onSession_cases (sd : Slot) (s : State) (body : Word → Answer) :
    (Slot.inRange s.cfg.nsess sd = false ∧ onSession sd s body = raise .illegalCommand s) ∨
    (Slot.inRange s.cfg.nsess sd = true ∧ isLive sd s = false ∧ onSession sd s body = raise .notLive s) ∨
    (Ready sd s ∧ onSession sd s body = body (getAcc sd s)) := by
  cases hr : Slot.inRange s.cfg.nsess sd with
  | false => exact .inl ⟨rfl, onSession_outOfRange hr body⟩
  | true =>
    cases hl : isLive sd s with
    | false => exact .inr (.inl ⟨rfl, rfl, onSession_dead hr hl body⟩)
    | true => exact .inr (.inr ⟨⟨hr, hl⟩, onSession_ready ⟨hr, hl⟩ body⟩)

/-- Everything `onSlot` can answer. -/
theorem onSlot_cases (sd : Slot) (s : State) (body : Answer) :
    (Slot.inRange s.cfg.nsess sd = false ∧ onSlot sd s body = raise .illegalCommand s) ∨
    (Slot.inRange s.cfg.nsess sd = true ∧ onSlot sd s body = body) := by
  cases hr : Slot.inRange s.cfg.nsess sd with
  | false => exact .inl ⟨rfl, onSlot_outOfRange hr body⟩
  | true => exact .inr ⟨rfl, onSlot_inRange hr body⟩

/-- `complete` answers a next state, the response being its only change. -/
theorem complete_next {d : Word} {s t : State} : complete d s = .next t ↔ t = respond .ok d s := by
  simp [complete, eq_comm]

/-- `raise` answers a next state, the response being its only change (R193). -/
theorem raise_next {st : Status} {s t : State} : raise st s = .next t ↔ t = respond st 0 s := by
  simp [raise, eq_comm]

/-- `storeAcc` answers a next state, the accumulator and the response being its only changes. -/
theorem storeAcc_next {sd : Slot} {v : Word} {s t : State} :
    storeAcc sd v s = .next t ↔ t = respond .ok 0 (setAcc sd v s) := complete_next

/-- Faults of different names are different answers. -/
theorem raise_inj {a b : Status} {s t : State} (h : raise a s = raise b t) : a = b := by
  simp only [raise, Host.Outcome.next.injEq] at h
  exact congrArg (fun u => u.rsp.status) h

/-- Everything `withRead` can do: the read is in range and the body answers, or it faults. -/
theorem withRead_cases (s : State) (r : WindowRead) (body : Word → Answer) :
    (r.within s.len = true ∧ withRead s r body = body (readWindow s r)) ∨
    (r.within s.len = false ∧ withRead s r body = .fault .windowOutOfRange) := by
  cases h : r.within s.len <;> simp [withRead, h]

/-- `withRead` inside the window. -/
theorem withRead_within {s : State} {r : WindowRead} (h : r.within s.len = true) (body : Word → Answer) :
    withRead s r body = body (readWindow s r) := by simp [withRead, h]

/-- Everything the acceptance of a WRITE can answer (R151). -/
theorem acceptWrite_cases (sd : Slot) (len : Word) (s : State) :
    (Slot.inRange s.cfg.nsess sd = false ∧ acceptWrite sd len s = raise .illegalCommand s) ∨
    (Slot.inRange s.cfg.nsess sd = true ∧ isLive sd s = false ∧ acceptWrite sd len s = raise .notLive s) ∨
    (Ready sd s ∧ acceptWrite sd len s = .next { s with cur := sd, len := len, ph := .lenadd }) :=
  onSession_cases sd s _

/-- The band tests on words, on numbers. -/
theorem word_le_iff (a b : Word) : a ≤ b ↔ a.toNat ≤ b.toNat := BitVec.le_def

theorem word_lt_iff (a b : Word) : a < b ↔ a.toNat < b.toNat := BitVec.lt_def

end Sys2Proof.Machine
end

