-- ==== Sys2Proof/Laws/Exec.lean ====
section
/-!
SUPPORT. Everything a command can do, said once: it raises IllegalCommand, or NotLive, or has its effect (60_exceptions.md R194, R195).
-/

namespace Sys2Proof.Machine

/-- The state a command leaves once it has passed both checks. -/
def effect (i : Instr) (s : State) : State :=
  match i with
  | .init sd key0 key1 => respond .ok 0 (setLive sd (setAcc sd (initialAcc key0 key1) s))
  | .wu8 sd v => respond .ok 0 (setAcc sd (update s.cfg.mult (getAcc sd s) (zext64 v)) s)
  | .wu16 sd v => respond .ok 0 (setAcc sd (update s.cfg.mult (getAcc sd s) (zext64 v)) s)
  | .wu32 sd v => respond .ok 0 (setAcc sd (update s.cfg.mult (getAcc sd s) (zext64 v)) s)
  | .wu64 sd v => respond .ok 0 (setAcc sd (update s.cfg.mult (getAcc sd s) v) s)
  | .wu128 sd lo hi => respond .ok 0 (setAcc sd (update s.cfg.mult (update s.cfg.mult (getAcc sd s) lo) hi) s)
  | .write sd len =>
    respond .ok 0 (commitSlice sd len (absorbSlice s.cfg s.win len ⟨getAcc sd s + len, s.key, s.pos, s.rem⟩) s)
  | .finish sd => respond .ok (mix s.cfg.mult (getAcc sd s)) s
  | .copy sd ss => respond .ok 0 (setLive sd (setAcc sd (getAcc ss s) s))

/-- A command that has its effect answers it: its response is there, with status OK. -/
theorem effect_rspValid (i : Instr) (s : State) : (effect i s).rspValid = true := by cases i <;> rfl

theorem effect_status (i : Instr) (s : State) : (effect i s).rsp.status = .ok := by cases i <;> rfl

/-- The effect of a command does not read the response before it. -/
theorem effect_respond (i : Instr) (st : Status) (d : Word) (s : State) : effect i (respond st d s) = effect i s := by
  cases i <;> rfl

/-- Every session the command needs is there. -/
def NeedsMet (i : Instr) (s : State) : Prop := ∀ n, i.needs = some n → isLive n s = true

/-- A command that works on one session, `body` being its effect on the accumulator. -/
theorem session_cases {i : Instr} {sd : Slot} {s : State} {body : Word → Answer} (hw : i.wf s.cfg.nsess = Slot.inRange s.cfg.nsess sd)
    (hn : i.needs = some sd) (he : exec i s = onSession sd s body) (hb : body (getAcc sd s) = .next (effect i s)) :
    (i.wf s.cfg.nsess = false ∧ exec i s = raise .illegalCommand s) ∨
    (i.wf s.cfg.nsess = true ∧ (∃ n, i.needs = some n ∧ isLive n s = false) ∧ exec i s = raise .notLive s) ∨
    (i.wf s.cfg.nsess = true ∧ NeedsMet i s ∧ exec i s = .next (effect i s)) := by
  rw [hw, he]
  rcases onSession_cases sd s body with ⟨h, e⟩ | ⟨h, hl, e⟩ | ⟨h, e⟩
  · exact .inl ⟨h, e⟩
  · exact .inr (.inl ⟨h, ⟨sd, hn, hl⟩, e⟩)
  · refine .inr (.inr ⟨h.1, ?_, e.trans hb⟩)
    intro n hs
    rw [hn] at hs
    cases hs
    exact h.2

/-- Everything `exec` can answer. -/
theorem exec_cases (i : Instr) (s : State) :
    (i.wf s.cfg.nsess = false ∧ exec i s = raise .illegalCommand s) ∨
    (i.wf s.cfg.nsess = true ∧ (∃ n, i.needs = some n ∧ isLive n s = false) ∧ exec i s = raise .notLive s) ∨
    (i.wf s.cfg.nsess = true ∧ NeedsMet i s ∧ exec i s = .next (effect i s)) := by
  cases i with
  | init sd key0 key1 =>
    rcases onSlot_cases sd s (complete 0 (setLive sd (setAcc sd (initialAcc key0 key1) s))) with ⟨h, e⟩ | ⟨h, e⟩
    · exact .inl ⟨h, e⟩
    · exact .inr (.inr ⟨h, fun n hs => by simp [Instr.needs] at hs, e⟩)
  | wu8 sd v => exact session_cases rfl rfl rfl rfl
  | wu16 sd v => exact session_cases rfl rfl rfl rfl
  | wu32 sd v => exact session_cases rfl rfl rfl rfl
  | wu64 sd v => exact session_cases rfl rfl rfl rfl
  | wu128 sd lo hi => exact session_cases rfl rfl rfl rfl
  | write sd len => exact session_cases rfl rfl rfl rfl
  | finish sd => exact session_cases rfl rfl rfl rfl
  | copy sd ss =>
    have he : exec (.copy sd ss) s =
        onSlot sd s (onSession ss s fun a => complete 0 (setLive sd (setAcc sd a s))) := rfl
    rw [he]
    rcases onSlot_cases sd s (onSession ss s fun a => complete 0 (setLive sd (setAcc sd a s))) with ⟨h, e⟩ | ⟨h, e⟩
    · exact .inl ⟨by simp [Instr.wf, h], e⟩
    · rcases onSession_cases ss s (fun a => complete 0 (setLive sd (setAcc sd a s))) with ⟨g, f⟩ | ⟨g, gl, f⟩ | ⟨g, f⟩
      · exact .inl ⟨by simp [Instr.wf, g], e.trans f⟩
      · exact .inr (.inl ⟨by simp [Instr.wf, h, g], ⟨ss, rfl, gl⟩, e.trans f⟩)
      · refine .inr (.inr ⟨by simp [Instr.wf, h, g.1], fun n hs => ?_, e.trans f⟩)
        cases hs
        exact g.2

/-- A command that answers `t` raised a fault, the response being its only change, or had its effect. -/
theorem exec_next_cases {i : Instr} {s t : State} (h : exec i s = .next t) :
    (i.wf s.cfg.nsess = false ∧ t = respond .illegalCommand 0 s) ∨
    (i.wf s.cfg.nsess = true ∧ (∃ n, i.needs = some n ∧ isLive n s = false) ∧ t = respond .notLive 0 s) ∨
    (i.wf s.cfg.nsess = true ∧ NeedsMet i s ∧ t = effect i s) := by
  rcases exec_cases i s with ⟨hw, e⟩ | ⟨hw, hn, e⟩ | ⟨hw, hn, e⟩ <;> rw [h] at e
  · exact .inl ⟨hw, raise_next.1 e.symm⟩
  · exact .inr (.inl ⟨hw, hn, raise_next.1 e.symm⟩)
  · exact .inr (.inr ⟨hw, hn, by simpa using e⟩)

end Sys2Proof.Machine
end

