-- ==== Sys2Proof/Laws/Memory.lean ====
section
/-!
SUPPORT. The input window as a canonical list: every operation that makes a window keeps the form, and reads after writes.
-/

namespace Sys2Proof.Machine

/-- Every listed offset of the window is at least `a`. -/
def Memory.from (a : Nat) (m : Memory) : Prop := ∀ c ∈ m, a ≤ c.1

/-- The tail of a canonical list is canonical and lies above its head, whose byte is not 0. -/
theorem wf_cons {c : Host.Cell} {m : Memory} :
    Memory.wf (c :: m) = true ↔ c.2 ≠ 0 ∧ (∀ d ∈ m.head?, c.1 < d.1) ∧ Memory.wf m = true := by
  cases m with
  | nil => simp [Memory.wf]
  | cons d m => simp [Memory.wf, and_assoc]

/-- The head of a window after a byte is put is the new offset or the old head. -/
theorem putByte_head {m : Memory} {a : Nat} {b : Byte} {x : Nat} (ha : x < a) (hm : ∀ d ∈ m.head?, x < d.1)
    (hw : Memory.wf m = true) : ∀ d ∈ (putByte m a b).head?, x < d.1 := by
  cases m with
  | nil => by_cases hb : b = 0#8 <;> simp [putByte, hb, ha]
  | cons c r =>
    have hc : x < c.1 := hm c (by simp)
    obtain ⟨-, hr, -⟩ := wf_cons.1 hw
    unfold putByte
    split
    · split <;> simp [hc, ha]
    · split
      · split
        · intro d hd
          exact hc.trans (hr d hd)
        · simp [ha]
      · simp [hc]

/-- Putting a byte keeps the canonical form. -/
theorem putByte_wf {m : Memory} {a : Nat} {b : Byte} (hw : Memory.wf m = true) : Memory.wf (putByte m a b) = true := by
  induction m with
  | nil => by_cases hb : b = 0#8 <;> simp [putByte, hb, Memory.wf]
  | cons c r ih =>
    obtain ⟨hc, hr, hwr⟩ := wf_cons.1 hw
    unfold putByte
    split
    · next h =>
      split
      · exact hw
      · next hb => exact wf_cons.2 ⟨hb, by simpa using h, hw⟩
    · next h =>
      split
      · next e =>
        split
        · exact hwr
        · next hb => exact wf_cons.2 ⟨hb, by simpa [e] using hr, hwr⟩
      · next e => exact wf_cons.2 ⟨hc, putByte_head (by omega) hr hwr, ih hwr⟩

/-- The window of a slice is in canonical form. -/
theorem windowFrom_wf (a : Nat) (bytes : List Byte) : Memory.wf (windowFrom a bytes) = true := by
  induction bytes generalizing a with
  | nil => rfl
  | cons b bs ih => exact putByte_wf (ih (a + 1))

theorem windowOf_wf (bytes : List Byte) : Memory.wf (windowOf bytes) = true := windowFrom_wf 0 bytes

/-- The window of the reset state is in canonical form. -/
theorem reset_window_wf : Memory.wf State.reset.win = true := rfl

/-- An offset below every listed one holds 0. -/
theorem byteAt_below {m : Memory} {a : Nat} (hw : Memory.wf m = true) (h : ∀ d ∈ m.head?, a < d.1) : byteAt m a = 0 := by
  induction m with
  | nil => rfl
  | cons c r ih =>
    obtain ⟨-, hr, hwr⟩ := wf_cons.1 hw
    have hac : a < c.1 := h c (by simp)
    rw [byteAt, if_neg (by omega)]
    exact ih hwr fun d hd => hac.trans (hr d hd)

/-- Reading where a byte was put gives that byte. -/
theorem byteAt_putByte_same {m : Memory} (a : Nat) (b : Byte) (hw : Memory.wf m = true) :
    byteAt (putByte m a b) a = b := by
  induction m with
  | nil => by_cases hb : b = 0#8 <;> simp [putByte, hb, byteAt]
  | cons c r ih =>
    obtain ⟨-, hr, hwr⟩ := wf_cons.1 hw
    unfold putByte
    split
    · next h =>
      split
      · next hb => rw [hb]; exact byteAt_below hw (by simpa using h)
      · simp [byteAt]
    · next h =>
      split
      · next e =>
        split
        · next hb => rw [hb, e]; exact byteAt_below hwr hr
        · simp [byteAt]
      · next e => rw [byteAt, if_neg (by omega)]; exact ih hwr

/-- Putting a byte leaves every other offset alone. -/
theorem byteAt_putByte_other {m : Memory} {a a' : Nat} (b : Byte) (h : a' ≠ a) :
    byteAt (putByte m a b) a' = byteAt m a' := by
  induction m with
  | nil => by_cases hb : b = 0#8 <;> simp [putByte, hb, byteAt, h.symm]
  | cons c r ih =>
    unfold putByte
    split
    · split
      · rfl
      · simp [byteAt, h.symm]
    · split
      · next e =>
        split
        · simp [byteAt, show ¬ c.1 = a' by omega]
        · simp [byteAt, h.symm, show ¬ c.1 = a' by omega]
      · simp [byteAt, ih]

/-- The window that holds bytes from offset `a` on reads as those bytes there, and as 0 elsewhere. -/
theorem byteAt_windowFrom (bytes : List Byte) (a i : Nat) :
    byteAt (windowFrom a bytes) i = if a ≤ i then bytes.getD (i - a) 0 else 0 := by
  induction bytes generalizing a with
  | nil => simp [windowFrom, byteAt]
  | cons b bs ih =>
    rw [windowFrom]
    by_cases e : i = a
    · subst e
      simp [byteAt_putByte_same i b (windowFrom_wf (i + 1) bs)]
    · rw [byteAt_putByte_other b e, ih]
      by_cases hai : a ≤ i
      · have h1 : a + 1 ≤ i := by omega
        have h2 : i - a = (i - (a + 1)) + 1 := by omega
        simp [hai, h1, h2]
      · have h1 : ¬ a + 1 ≤ i := by omega
        simp [hai, h1]

end Sys2Proof.Machine
end

