-- ==== Sys2Proof/Laws/PerInstr.lean ====
section
/-!
SUPPORT. Statements made per instruction about the instruction as syntax: its encoded command word selects the table row of
its operation (30_encoding.md R64) and carries its slots where R61 puts them.
-/

namespace Sys2Proof.Laws.EncodesToItsRow

/-- A command word from its fields. -/
def wordOf (op : BitVec 4) (sd ss : Slot) : BitVec 16 :=
  op ++ BitVec.ofFin (w := 4) sd ++ BitVec.ofFin (w := 4) ss ++ (0 : BitVec 4)

/-- The command word of `i` selects the row of its operation and format, and its slot fields are those of `i`. -/
def Statement (i : Instr) : Prop :=
  (∃ r ∈ opcodeTable, r.op = i.opcode ∧ r.format = i.opcode.format ∧ r.selects (encodeCW i) = true) ∧
  sdField (encodeCW i) = i.dest ∧ ssField (encodeCW i) = i.sourceField ∧ rsvField (encodeCW i) = 0

/-- The statement from a row and a check of the command word, which does not depend on the operand. -/
theorem ofWord {i : Instr} (r : OpRow) (hr : r ∈ opcodeTable) (ho : r.op = i.opcode) (hf : r.format = i.opcode.format)
    (h : r.selects (wordOf i.opcode.code i.dest i.sourceField) = true ∧
      sdField (wordOf i.opcode.code i.dest i.sourceField) = i.dest ∧
      ssField (wordOf i.opcode.code i.dest i.sourceField) = i.sourceField ∧
      rsvField (wordOf i.opcode.code i.dest i.sourceField) = 0) : Statement i :=
  ⟨⟨r, hr, ho, hf, h.1⟩, h.2⟩

theorem init (sd : Slot) (key0 key1 : Word) : Statement (.init sd key0 key1) :=
  ofWord ⟨.init, "INIT", .k, 0x1000, 0xF0FF⟩ (by simp [opcodeTable]) rfl rfl (by simp only [Instr.opcode, Instr.dest, Instr.sourceField]; revert sd; decide)

theorem wu8 (sd : Slot) (v : BitVec 8) : Statement (.wu8 sd v) :=
  ofWord ⟨.wu8, "WU8", .v8, 0x2000, 0xF0FF⟩ (by simp [opcodeTable]) rfl rfl (by simp only [Instr.opcode, Instr.dest, Instr.sourceField]; revert sd; decide)

theorem wu16 (sd : Slot) (v : BitVec 16) : Statement (.wu16 sd v) :=
  ofWord ⟨.wu16, "WU16", .v16, 0x3000, 0xF0FF⟩ (by simp [opcodeTable]) rfl rfl (by simp only [Instr.opcode, Instr.dest, Instr.sourceField]; revert sd; decide)

theorem wu32 (sd : Slot) (v : BitVec 32) : Statement (.wu32 sd v) :=
  ofWord ⟨.wu32, "WU32", .v32, 0x4000, 0xF0FF⟩ (by simp [opcodeTable]) rfl rfl (by simp only [Instr.opcode, Instr.dest, Instr.sourceField]; revert sd; decide)

theorem wu64 (sd : Slot) (v : BitVec 64) : Statement (.wu64 sd v) :=
  ofWord ⟨.wu64, "WU64", .v64, 0x5000, 0xF0FF⟩ (by simp [opcodeTable]) rfl rfl (by simp only [Instr.opcode, Instr.dest, Instr.sourceField]; revert sd; decide)

theorem wu128 (sd : Slot) (lo hi : Word) : Statement (.wu128 sd lo hi) :=
  ofWord ⟨.wu128, "WU128", .v128, 0x6000, 0xF0FF⟩ (by simp [opcodeTable]) rfl rfl (by simp only [Instr.opcode, Instr.dest, Instr.sourceField]; revert sd; decide)

theorem write (sd : Slot) (len : Word) : Statement (.write sd len) :=
  ofWord ⟨.write, "WRITE", .l, 0x7000, 0xF0FF⟩ (by simp [opcodeTable]) rfl rfl (by simp only [Instr.opcode, Instr.dest, Instr.sourceField]; revert sd; decide)

theorem finish (sd : Slot) : Statement (.finish sd) :=
  ofWord ⟨.finish, "FINISH", .n, 0x8000, 0xF0FF⟩ (by simp [opcodeTable]) rfl rfl (by simp only [Instr.opcode, Instr.dest, Instr.sourceField]; revert sd; decide)

theorem copy (sd ss : Slot) : Statement (.copy sd ss) :=
  ofWord ⟨.copy, "COPY", .n, 0x9000, 0xF00F⟩ (by simp [opcodeTable]) rfl rfl (by simp only [Instr.opcode, Instr.dest, Instr.sourceField]; revert sd ss; decide)

end Sys2Proof.Laws.EncodesToItsRow
end

