-- ==== Sys2Proof/Laws/Step.lean ====
section
/-!
SUPPORT. What the command channel, the micro-steps and a step can do, said once (30_encoding.md R60, R65, R71;
43_slice_write.md R150 to R162).
-/

namespace Sys2Proof.Machine

/-! ## Window reads -/

@[simp] theorem bytes_size0 (off : Word) : (WindowRead.mk off 0#2).bytes = 1 := rfl
@[simp] theorem bytes_size1 (off : Word) : (WindowRead.mk off 1#2).bytes = 2 := rfl
@[simp] theorem bytes_size2 (off : Word) : (WindowRead.mk off 2#2).bytes = 4 := rfl
@[simp] theorem bytes_size3 (off : Word) : (WindowRead.mk off 3#2).bytes = 8 := rfl

/-- A read is inside the window when its last byte is (R44). -/
theorem within_iff (len : Word) (r : WindowRead) : r.within len = true ↔ r.off.toNat + r.bytes ≤ len.toNat := by
  simp [WindowRead.within]

/-! ## The micro-steps -/

/-- What no micro-step changes. -/
structure MicroFrame (s t : State) : Prop where
  cfg : t.cfg = s.cfg
  live : t.live = s.live
  len : t.len = s.len
  cur : t.cur = s.cur
  win : t.win = s.win
  inputs : t.inputs = s.inputs
  free : t.free = s.free

/-- A micro-step with one read that answers a next state made the read inside the window. -/
theorem withRead_next {s t : State} {r : WindowRead} {body : Word → Answer} (h : withRead s r body = .next t) :
    r.within s.len = true ∧ body (readWindow s r) = .next t := by
  rcases withRead_cases s r body with ⟨hw, e⟩ | ⟨-, e⟩
  · exact ⟨hw, e.symm.trans h⟩
  · rw [h] at e; cases e

/-- A micro-step changes the accumulator, the phase, `pos`, `rem`, `key` and the response alone (R152 to R161). -/
theorem microStep_frame {s t : State} (h : microStep s = .next t) : MicroFrame s t := by
  unfold microStep at h
  split at h
  · cases h; exact ⟨rfl, rfl, rfl, rfl, rfl, rfl, rfl⟩
  · cases h; exact ⟨rfl, rfl, rfl, rfl, rfl, rfl, rfl⟩
  · cases h; exact ⟨rfl, rfl, rfl, rfl, rfl, rfl, rfl⟩
  · cases (withRead_next h).2; exact ⟨rfl, rfl, rfl, rfl, rfl, rfl, rfl⟩
  · cases (withRead_next (withRead_next h).2).2; exact ⟨rfl, rfl, rfl, rfl, rfl, rfl, rfl⟩
  · cases (withRead_next (withRead_next h).2).2; exact ⟨rfl, rfl, rfl, rfl, rfl, rfl, rfl⟩
  · cases h; exact ⟨rfl, rfl, rfl, rfl, rfl, rfl, rfl⟩
  · cases (withRead_next h).2; exact ⟨rfl, rfl, rfl, rfl, rfl, rfl, rfl⟩
  · cases (withRead_next h).2; exact ⟨rfl, rfl, rfl, rfl, rfl, rfl, rfl⟩
  · cases (withRead_next h).2; exact ⟨rfl, rfl, rfl, rfl, rfl, rfl, rfl⟩
  · cases h; exact ⟨rfl, rfl, rfl, rfl, rfl, rfl, rfl⟩

/-! ## The command channel -/

/-- Everything the presentation of a command can do (R60, R65). -/
theorem transact_cases (c : Command) (s : State) :
    ((∀ i, decode s.cfg.nsess c.words ≠ .ok i) ∧ transact c s = raise .illegalCommand (openCommand c s)) ∨
    (∃ i, decode s.cfg.nsess c.words = .ok i ∧ transact c s = exec i (openCommand c s)) := by
  unfold transact
  cases h : decode s.cfg.nsess c.words with
  | error e => exact .inl ⟨by simp, rfl⟩
  | ok i => exact .inr ⟨i, rfl, rfl⟩

/-- Everything the presentation of a command can do where a WRITE is taken by micro-steps (R150, R151). -/
theorem startCommand_cases (c : Command) (s : State) :
    ((∀ i, decode s.cfg.nsess c.words ≠ .ok i) ∧ startCommand c s = raise .illegalCommand (openCommand c s)) ∨
    (∃ sd len, decode s.cfg.nsess c.words = .ok (.write sd len) ∧
      startCommand c s = acceptWrite sd len (openCommand c s)) ∨
    (∃ i, decode s.cfg.nsess c.words = .ok i ∧ i.opcode ≠ .write ∧ startCommand c s = exec i (openCommand c s)) := by
  unfold startCommand
  cases h : decode s.cfg.nsess c.words with
  | error e => exact .inl ⟨by simp, rfl⟩
  | ok i => cases i <;> simp [Instr.opcode]

/-! ## A step -/

/-- An idle block takes the host's next move. -/
theorem step_idle {s : State} (h : s.ph = .idle) : step s = idleStep s := by simp [step, hostStep, cmdReady, h]

/-- A busy block makes a micro-step. -/
theorem step_busy {s : State} (h : s.ph ≠ .idle) : step s = busyStep s := by simp [step, hostStep, cmdReady, h]

/-- Reset works in every phase (R210, R211). -/
theorem step_reset {s : State} {rest : List HostInput} (h : s.inputs = .reset :: rest) :
    step s = .next (applyReset { s with inputs := rest }) := by
  by_cases hp : s.ph = .idle
  · rw [step_idle hp, idleStep, h]
  · rw [step_busy hp, busyStep, h]

end Sys2Proof.Machine
end

