-- ==== Sys2Proof/Tests/Slice0.lean ====
section
/-!
SUPPORT. Tests: expected values from spec/95_test_vectors.md and 30_encoding.md, words written out from R61, R62 and R64; and
for every statement with hypotheses a witness that meets them.
-/

open Sys2Proof Sys2Proof.Machine

namespace Sys2Proof.Tests

/-! ## Helpers -/

/-- `A0` of 95_test_vectors.md section 0. -/
def a0 : Word := 0x4D186F7E81D4A3B2

/-- An idle block in which every accumulator holds `a` and slot 0 alone is live. -/
def block (p : Params) (a : Word) : State where
  cfg := p
  acc := Vector.replicate maxSlots a
  live := (Vector.replicate maxSlots false).set 0 true
  ph := .idle
  len := 0
  pos := 0
  rem := 0
  key := 0
  cur := 0
  win := []
  rsp := ⟨.ok, 0⟩
  rspValid := false
  inputs := []
  free := 0

/-- A block with a WRITE on slot 0 in progress. -/
def busy (ph : Phase) (len pos rem : Word) : State :=
  { block Params.default a0 with ph := ph, len := len, pos := pos, rem := rem, key := 1 }

/-- The window of the first 16 bytes `00 01 … 0F`. -/
def window16 : Memory := windowOf [0, 1, 2, 3, 4, 5, 6, 7, 8, 9, 10, 11, 12, 13, 14, 15]

/-- The window of the bytes `00 01 … 18` (section 2.6). -/
def window25 : Memory :=
  windowOf [0, 1, 2, 3, 4, 5, 6, 7, 8, 9, 10, 11, 12, 13, 14, 15, 16, 17, 18, 19, 20, 21, 22, 23, 24]

/-- The accumulator of a slot in an answer. -/
def accOf (sd : Slot) : Answer → Option Word
  | .next t => some (getAcc sd t)
  | .fault _ => none
  | .refused _ => none

/-- The response in an answer. -/
def rspOf : Answer → Option Response
  | .next t => some t.rsp
  | .fault _ => none
  | .refused _ => none

/-- The flag of a slot in an answer. -/
def liveOf (sd : Slot) : Answer → Option Bool
  | .next t => some (isLive sd t)
  | .fault _ => none
  | .refused _ => none

/-- A line of a program on a block whose slot 0 holds `a0`. -/
def run (p : Params) (l : Line) : Answer := transact (lineCommand l) (block p a0)

/-- What decoding leaves: the command, or nothing. -/
def decoded (nsess : Nat) (cw : BitVec 16) (opnd : BitVec 128) : Option Instr :=
  match decode nsess ⟨cw, opnd⟩ with
  | .ok i => some i
  | .error _ => none

/-! ## WellFormed: a slot the block lacks is refused, in every command (R68) -/

theorem test_wf_accepts : (Instr.copy 1 0).wf 2 = true ∧ (Instr.init 15 0 0).wf 16 = true := by decide
theorem test_wf_refuses_init : (Instr.init 2 0 0).wf 2 = false := by decide
theorem test_wf_refuses_wu8 : (Instr.wu8 2 0).wf 2 = false := by decide
theorem test_wf_refuses_wu16 : (Instr.wu16 2 0).wf 2 = false := by decide
theorem test_wf_refuses_wu32 : (Instr.wu32 2 0).wf 2 = false := by decide
theorem test_wf_refuses_wu64 : (Instr.wu64 2 0).wf 2 = false := by decide
theorem test_wf_refuses_wu128 : (Instr.wu128 2 0 0).wf 2 = false := by decide
theorem test_wf_refuses_write : (Instr.write 2 0).wf 2 = false := by decide
theorem test_wf_refuses_finish : (Instr.finish 2).wf 2 = false := by decide
theorem test_wf_refuses_copy_dest : (Instr.copy 2 0).wf 2 = false := by decide
theorem test_wf_refuses_copy_source : (Instr.copy 0 2).wf 2 = false := by decide

/-! ## Decoding: `op sd ss rsv` (R61, R64), operands (R62) -/

theorem test_decode_init : decoded 2 0b0001000100000000 0xFEDCBA98765432100123456789ABCDEF =
    some (.init 1 0x0123456789ABCDEF 0xFEDCBA9876543210) := by decide
theorem test_decode_wu8 : decoded 2 0b0010000000000000 0x1FF = some (.wu8 0 0xFF) := by decide
theorem test_decode_wu16 : decoded 2 0b0011000100000000 0x1BEEF = some (.wu16 1 0xBEEF) := by decide
theorem test_decode_wu32 : decoded 2 0b0100000000000000 0x1DEADBEEF = some (.wu32 0 0xDEADBEEF) := by decide
theorem test_decode_wu64 : decoded 2 0b0101000100000000 0x10000000000000005 = some (.wu64 1 5) := by decide
theorem test_decode_wu128 : decoded 2 0b0110000000000000 0x0F1E2D3C4B5A69788796A5B4C3D2E1F0 =
    some (.wu128 0 0x8796A5B4C3D2E1F0 0x0F1E2D3C4B5A6978) := by decide
theorem test_decode_write : decoded 2 0b0111000100000000 0xC = some (.write 1 12) := by decide
theorem test_decode_finish : decoded 2 0b1000000000000000 0 = some (.finish 0) := by decide
theorem test_decode_copy : decoded 2 0b1001000000010000 0 = some (.copy 0 1) := by decide

/-- The illegal words of section 2.9, each refused by its cause. -/
theorem test_decode_illegal :
    decode 2 ⟨0x0000, 0⟩ = .error .reservedOp ∧ decode 2 ⟨0xA000, 0⟩ = .error .reservedOp ∧
    decode 2 ⟨0xFFFF, 0⟩ = .error .reservedOp ∧ decode 2 ⟨0x1001, 0⟩ = .error .reservedBits ∧
    decode 2 ⟨0x9008, 0⟩ = .error .reservedBits ∧ decode 2 ⟨0x1010, 0⟩ = .error .sourceBits ∧
    decode 2 ⟨0x1200, 0⟩ = .error .slotRange ∧ decode 2 ⟨0x9120, 0⟩ = .error .sourceRange ∧
    decode 15 ⟨0x2F00, 0⟩ = .error .slotRange ∧ decode 16 ⟨0x2F00, 0⟩ = .ok (.wu8 15 0) := by decide

/-- Words of R80. -/
theorem test_encode : encode (.init 1 3 4) = ⟨0x1100, 0x00000000000000040000000000000003⟩ ∧
    encode (.wu128 0 3 4) = ⟨0x6000, 0x00000000000000040000000000000003⟩ ∧
    encode (.copy 1 2) = ⟨0x9120, 0⟩ := by decide

/-- The table's numbering: `OPND` counts on from bit 16. -/
theorem test_table_word : decodeTableWord 144 0x10000000000000000FF2000 = some (.wu8 0 0xFF) ∧
    decodeTableWord 16 0x8000 = some (.finish 0) ∧ decodeTableWord 16 0x8200 = none := by decide

/-! ## The datapath (sections 2.1 to 2.3) -/

theorem test_mix : mix Params.default.mult 0x64 = 0xB9ED41C889869BF0 ∧ mix 3 0xFFFFFFFFFFFFFFFF = 0xFFFFFFFFFCFFFFFD := by
  decide
theorem test_update : update 3 0xFFFFFFFFFFFFFFFF 0xFFFFFFFFFFFFFFFF = 0x0000000003000002 := by decide
theorem test_ord : ord Params.default.mult Params.default.inc a0 0x6867666564636261 0xFFFFFFFFFFFFFFFF =
    (0x297ADB396EF13BDA, 0x14057B7EF767814E) := by decide

/-! ## The window (R44, S1 of section 1, section 2.6) -/

theorem test_read_bytes : memRead (windowOf [0x64, 0x64, 0x64, 0x64, 0x64, 0x64, 0x64, 0x64]) 0 8 = 0x6464646464646464 := by
  decide
theorem test_read_unaligned : memRead window25 17 8 = 0x1817161514131211 ∧ memRead window25 2 2 = 0x0302 := by decide

/-! ## One command each (sections 2.4 to 2.9), at most two tests a command -/

theorem test_init : accOf 1 (run Params.default (.init 1 0x0123456789ABCDEF 0xFEDCBA9876543210)) = some a0 ∧
    liveOf 1 (run Params.default (.init 1 0x0123456789ABCDEF 0xFEDCBA9876543210)) = some true := by decide
theorem test_init_rotates_key1 : accOf 0 (run Params.default (.init 0 0 0x0000020000000000)) = some 1 := by decide

theorem test_wu8 : accOf 0 (run Params.default (.wu8 0 0xFF)) = some 0x781BAFC0A15D0D46 := by decide
theorem test_wu8_unsigned : accOf 0 (run Params.p3 (.wu8 0 0x80)) = some 0xB9483CE0A25AED75 := by decide

theorem test_wu16 : accOf 0 (run Params.default (.wu16 0 0xBEEF)) = some 0x781BAFC0A15DB356 := by decide
theorem test_wu16_unsigned : accOf 0 (run Params.toy (.wu16 0 0x8000)) = some 0xBF40EA51D9260C37 := by decide

theorem test_wu32 : accOf 0 (run Params.default (.wu32 0 0xDEADBEEF)) = some 0x781BAFC07FF0B356 := by decide
theorem test_wu32_unsigned : accOf 0 (run Params.p3 (.wu32 0 0x80000000)) = some 0xB9483CE0225AEDF5 := by decide

theorem test_wu64 : accOf 0 (run Params.default (.wu64 0 0x6464646464646464)) = some 0x1C7FCBA4C53969DD := by decide
theorem test_wu64_not_live : rspOf (run Params.default (.wu64 1 5)) = some ⟨.notLive, 0⟩ ∧
    accOf 1 (run Params.default (.wu64 1 5)) = some a0 := by decide

theorem test_wu128_low_word_first :
    accOf 0 (run Params.default (.wu128 0 0x0F1E2D3C4B5A69788796A5B4C3D2E1F0)) = some 0xA8AE3A960C1F2F6C := by decide
theorem test_wu128_small : accOf 0 (run Params.p3 (.wu128 0 5)) = some 0xF2DA992EB841C511 := by decide

theorem test_write_abc : accOf 0 (run Params.default (.write 0 [0x61, 0x62, 0x63])) = some 0x6661D2378E4AD9EE := by decide
theorem test_write_nine_bytes :
    accOf 0 (run Params.default (.write 0 [0x61, 0x62, 0x63, 0x64, 0x65, 0x66, 0x67, 0x68, 0x69])) =
      some 0x0A74A2546E5F0A5D := by decide

theorem test_finish : rspOf (run Params.default (.finish 0)) = some ⟨.ok, 0x781BAFC0A15D0DB9⟩ ∧
    accOf 0 (run Params.default (.finish 0)) = some a0 := by decide
theorem test_finish_not_live : rspOf (run Params.default (.finish 1)) = some ⟨.notLive, 0⟩ := by decide

theorem test_copy : accOf 1 (run Params.default (.copy 1 0)) = some a0 ∧
    liveOf 1 (run Params.default (.copy 1 0)) = some true := by decide
theorem test_copy_from_dead_slot : rspOf (run Params.default (.copy 0 1)) = some ⟨.notLive, 0⟩ ∧
    liveOf 0 (run Params.default (.copy 0 1)) = some true := by decide

/-- `0x8200` with nothing live is illegal and not NotLive (section 2.9, R194). -/
theorem test_illegal_before_dead :
    rspOf (transact ⟨⟨0x8200, 0⟩, []⟩ (block Params.default a0)) = some ⟨.illegalCommand, 0⟩ := by decide

/-! ## The slice processor: the trace of `len = 25` (section 2.6) -/

/-- The first loop step of the trace. -/
theorem test_micro_loop :
    let s := { busy .loop 25 0 25 with win := window25, key := 0x4D186F7E81D4A3CB }
    let t := microStep (setAcc 0 0x4D186F7E81D4A3CB s)
    accOf 0 t = some 0x9F8A95E4D8450494 := by decide

/-- The tail of the trace. -/
theorem test_micro_tail :
    accOf 0 (microStep (setAcc 0 0xBC87CDC6D329CC92 { busy .tail 25 16 9 with win := window25 })) =
      some 0x7FE2E66FBE886357 := by decide

/-- A read outside the window is a fault; no run reaches this state (R48). -/
theorem test_micro_fault : microStep (busy .b1 0 0 0) = .fault .windowOutOfRange := by rfl

/-! ## A step -/

/-- The first instruction after reset: INIT answers OK, FINISH finds no session. -/
theorem test_step_after_reset :
    rspOf (step (State.reset.withFetchWord 144 0x1000)) = some ⟨.ok, 0⟩ ∧
    rspOf (step (State.reset.withFetchWord 16 0x8000)) = some ⟨.notLive, 0⟩ := by decide

/-- The text of lines (R80, R81). -/
theorem test_line_text : lineText (.wu32 0 5) = "WU32 s0, 5" ∧ lineText (.write 15 [1, 2]) = "WRITE s15, [1 2]" ∧
    lineText (.dup 1 0) = "DUP s1, s0" := by decide

/-- The pseudo-instructions have the words of what they stand for (R81). -/
theorem test_pseudo : lineCommand (.wusize 1 7) = ⟨⟨0x5100, 7⟩, []⟩ ∧ lineCommand (.dup 1 0) = ⟨⟨0x9100, 0⟩, []⟩ := by decide

/-! ## Witnesses: for each statement with hypotheses, a state and operands that meet them -/

/-- The block of the tests, whose slot 0 is ready and whose slot 1 is not live. -/
theorem block_ready (p : Params) (a : Word) (h : Slot.inRange p.nsess 0 = true) : Ready 0 (block p a) := ⟨h, rfl⟩

/-- A block with both slots live. -/
def twoLive : State := { block Params.default a0 with live := Vector.replicate maxSlots true }

/-- The block in which the host presents `x` next. -/
def given (x : HostInput) (s : State) : State := { s with inputs := x :: s.inputs }

/-- A busy block meets the invariant when its registers meet the bounds of its phase. -/
theorem busy_inv {ph : Phase} {len pos rem : Word} (h : PhaseBounds (busy ph len pos rem)) : Inv (busy ph len pos rem) where
  legal := (by decide : Params.default.Legal)
  slots := (by decide : ∀ j : Slot, Slot.inRange 2 j = false → isLive j (block Params.default a0) = false)
  window := rfl
  windows := by intro x hx; cases hx
  session := fun _ => ⟨rfl, rfl⟩
  bounds := h

/-- A word that carries no command. -/
theorem no_command (nsess : Nat) (opnd : BitVec 128) (i : Instr) : decode nsess ⟨0, opnd⟩ ≠ .ok i := by
  simp [decode, opField, Opcode.ofCode]

/-- DecodeOfEncodeIsTheCommand: well-formed commands of every format, at the highest slot of a block of 16. -/
theorem witness_DecodeOfEncodeIsTheCommand :
    (Instr.init 15 1 2).wf 16 = true ∧ (Instr.wu8 15 0xFF).wf 16 = true ∧ (Instr.wu16 15 0xFFFF).wf 16 = true ∧
    (Instr.wu32 15 1).wf 16 = true ∧ (Instr.wu64 15 1).wf 16 = true ∧ (Instr.wu128 15 1 2).wf 16 = true ∧
    (Instr.write 15 9).wf 16 = true ∧ (Instr.finish 15).wf 16 = true ∧ (Instr.copy 15 14).wf 16 = true := by decide

/-- EncodeOfDecodeKeepsReadBits: words with unread operand bits set decode. -/
theorem witness_EncodeOfDecodeKeepsReadBits :
    decode 2 ⟨0x2100, 0x1FF⟩ = .ok (.wu8 1 0xFF) ∧ decode 2 ⟨0x9100, 0x1FF⟩ = .ok (.copy 1 0) := by decide

/-- EveryCommandWordIsLegalOrIllegal: a word that no command decodes from, and one that decodes. -/
theorem witness_EveryCommandWordIsLegalOrIllegal :
    (∀ i, decode (block Params.default a0).cfg.nsess (Command.mk ⟨0, 5⟩ []).words ≠ .ok i) ∧
    decode 2 ⟨0x7100, 0xC⟩ = .ok (.write 1 12) := ⟨no_command 2 5, by decide⟩

/-- ReservedEncodingsRaiseIllegalCommand: the lowest and the highest reserved codes, reserved bits, and slots out of range. -/
theorem witness_ReservedEncodingsRaiseIllegalCommand :
    opField 0x0000 = 0 ∧ 10 ≤ (opField 0xA000).toNat ∧ 10 ≤ (opField 0xFFFF).toNat ∧ rsvField 0x9008 ≠ 0 ∧
    (ssField 0x1010 ≠ 0 ∧ opField 0x1010 ≠ 9) ∧ (block Params.default a0).cfg.nsess ≤ (sdField 0x1200).val ∧
    (opField 0x9120 = 9 ∧ (block Params.default a0).cfg.nsess ≤ (ssField 0x9120).val) := by decide

/-- UnreadOperandBitsChangeNothing: two operands that differ in bits WU8 does not read. -/
theorem witness_UnreadOperandBitsChangeNothing :
    ∀ op, Opcode.ofCode (opField 0x2000) = some op → op.format.readPart 0xFF = op.format.readPart 0x1FF := by
  intro op h
  cases h
  decide

/-- AssemblerFormsStandForTheirCommands: every line on a slot of the block, among them a slice. -/
theorem witness_AssemblerFormsStandForTheirCommands :
    (lineInstr (.write 1 [1, 2, 3])).wf 2 = true ∧ (lineInstr (.dup 1 0)).wf 2 = true ∧
    (lineInstr (.wu128 0 5)).wf 2 = true := by decide

/-- MixIsABijectionForOddMultipliers: an odd multiplier with its inverse, and two words that agree up to bit 62. -/
theorem witness_MixIsABijectionForOddMultipliers :
    Params.default.mult.getLsbD 0 = true ∧ (3 : Word) * 0xAAAAAAAAAAAAAAAB = 1 ∧
    (∀ j, j ≤ 62 → (1 : Word).getLsbD j = (0x8000000000000001 : Word).getLsbD j) := by decide

/-- UpdateMixesTheAccumulatorAndXorsTheWord: an odd multiplier other than the default. -/
theorem witness_UpdateMixesTheAccumulatorAndXorsTheWord : Params.p3.mult.getLsbD 0 = true := by decide

/-- OrdRunXorsIndependentTerms: an even and an odd increment, the first two keys and the last. -/
theorem witness_OrdRunXorsIndependentTerms :
    (2 : Word) ≠ 0 ∧ Params.default.inc.getLsbD 0 = true ∧ 0 < 2 ^ 64 ∧ 2 ^ 64 - 1 < 2 ^ 64 ∧ (0 : Nat) ≠ 2 ^ 64 - 1 := by
  decide

/-- ProductAndRotationAreAsStated: the first and last bit of each part of the rotation. -/
theorem witness_ProductAndRotationAreAsStated : (0 < 64 ∧ 40 < 64) ∧ (41 < 64 ∧ 63 < 64) := by decide

/-- WindowReadIsTheLittleEndianSum: each size of a read, the last at the highest offset. -/
theorem witness_WindowReadIsTheLittleEndianSum : ∀ n ∈ [1, 2, 4, 8], n = 1 ∨ n = 2 ∨ n = 4 ∨ n = 8 := by decide

/-- WindowReadsAreAlwaysInRange: states of the invariant that issue reads, at the least and the greatest length of each
band and at the first and last position of the loop. -/
theorem witness_WindowReadsAreAlwaysInRange :
    (Inv (busy .b1 1 0 0) ∧ windowReads (busy .b1 1 0 0) ≠ []) ∧
    (Inv (busy .b2 2 0 0) ∧ Inv (busy .b2 3 0 0) ∧ windowReads (busy .b2 3 0 0) ≠ []) ∧
    (Inv (busy .b4 4 0 0) ∧ Inv (busy .b4 8 0 0) ∧ windowReads (busy .b4 8 0 0) ≠ []) ∧
    (Inv (busy .loop 25 0 25) ∧ Inv (busy .loop 25 8 17) ∧ windowReads (busy .loop 25 8 17) ≠ []) ∧
    (Inv (busy .front 25 16 9) ∧ Inv (busy .front 24 8 16) ∧ windowReads (busy .front 9 0 9) ≠ []) ∧
    (Inv (busy .tail 9 0 9) ∧ Inv (busy .tail 24 8 16) ∧ windowReads (busy .tail 9 0 9) ≠ []) := by
  refine ⟨⟨busy_inv ?_, ?_⟩, ⟨busy_inv ?_, busy_inv ?_, ?_⟩, ⟨busy_inv ?_, busy_inv ?_, ?_⟩,
    ⟨busy_inv ?_, busy_inv ?_, ?_⟩, ⟨busy_inv ?_, busy_inv ?_, ?_⟩, busy_inv ?_, busy_inv ?_, ?_⟩ <;>
  simp [PhaseBounds, BulkPosition, busy, windowReads]

/-- MicroStepSeesOnlyTheReadsItIssues: two windows that agree on the byte `B1` reads and differ elsewhere. -/
theorem witness_MicroStepSeesOnlyTheReadsItIssues :
    (∀ r ∈ windowReads (busy .b1 1 0 0), ∀ i, i < r.bytes →
      byteAt [(7, 9)] (r.off.toNat + i) = byteAt (busy .b1 1 0 0).win (r.off.toNat + i)) ∧
    ∃ t, microStep (busy .b1 1 0 0) = .next t := by
  refine ⟨?_, _, rfl⟩
  intro r hr i hi
  have e : r = ⟨0, 0⟩ := by simpa [windowReads, busy] using hr
  subst e
  have hi0 : i = 0 := by simpa using hi
  subst hi0
  rfl

/-- WriteSeesOnlyTheBytesOfItsSlice: two windows that agree on a slice of 1 byte and differ behind it. -/
theorem witness_WriteSeesOnlyTheBytesOfItsSlice :
    SameBytes 1 [(7, 9)] (block Params.default a0).win ∧ ∃ t, exec (.write 0 1) (block Params.default a0) = .next t := by
  refine ⟨?_, _, rfl⟩
  intro a ha
  have h0 : a = 0 := by simpa using ha
  subst h0
  rfl

/-- InitCreatesASession: slots in and out of range, live and not. -/
theorem witness_InitCreatesASession :
    Slot.inRange (block Params.default a0).cfg.nsess 2 = false ∧ Slot.inRange (block Params.default a0).cfg.nsess 1 = true ∧
    isLive 0 (block Params.default a0) = true ∧ isLive 1 (block Params.default a0) = false := by decide

/-- SessionsDependOnlyOnTheMixedKeys: the two key pairs of section 2.4. -/
theorem witness_SessionsDependOnlyOnTheMixedKeys :
    (0 : Word) ^^^ (0 : Word).rotateLeft 23 = 0x800000 ^^^ (1 : Word).rotateLeft 23 := by decide

/-- CopyDuplicatesASession: each check fails somewhere, and COPY of a live slot onto another and onto itself. -/
theorem witness_CopyDuplicatesASession :
    Slot.inRange (block Params.default a0).cfg.nsess 2 = false ∧
    (Slot.inRange (block Params.default a0).cfg.nsess 1 = true ∧ isLive 1 (block Params.default a0) = false) ∧
    Ready 0 (block Params.default a0) := ⟨by decide, by decide, block_ready _ _ (by decide)⟩

/-- FinishReturnsTheDigest, Wu8AbsorbsAByte, Wu16AbsorbsAHalfword, Wu32AbsorbsA32BitValue, Wu64AbsorbsAWord,
Wu128AbsorbsTwoWordsLowFirst, WriteChecksItsSlotLikeEveryWrite: a slot out of range, a dead slot, and a slot that is ready. -/
theorem witness_FixedWidthAndFinish :
    Slot.inRange (block Params.default a0).cfg.nsess 2 = false ∧
    (Slot.inRange (block Params.default a0).cfg.nsess 1 = true ∧ isLive 1 (block Params.default a0) = false) ∧
    Ready 0 (block Params.default a0) := ⟨by decide, by decide, block_ready _ _ (by decide)⟩

/-- FinishDoesNotEndTheSession: FINISH answers on a live and on a dead slot; commands on another slot, one of them reading the
first; the slot is live. -/
theorem witness_FinishDoesNotEndTheSession :
    (∃ t, exec (.finish 0) (block Params.default a0) = .next t) ∧ (∃ t, exec (.finish 1) (block Params.default a0) = .next t) ∧
    (∀ c ∈ [(Instr.copy 1 0, ([] : Memory)), (Instr.write 1 9, window16), (Instr.finish 1, [])], c.1.dest ≠ 0) ∧
    isLive 0 (block Params.default a0) = true :=
  ⟨⟨_, rfl⟩, ⟨_, rfl⟩, by decide, rfl⟩

/-- DigestDeterminesTheAccumulator: two sessions of one block, an odd multiplier, and its inverse. -/
theorem witness_DigestDeterminesTheAccumulator :
    Ready 0 (block Params.p3 5) ∧ Ready 0 (block Params.p3 a0) ∧ (block Params.p3 5).cfg = (block Params.p3 a0).cfg ∧
    (block Params.p3 5).cfg.mult.getLsbD 0 = true ∧ (block Params.p3 5).cfg.mult * 0xAAAAAAAAAAAAAAAB = 1 ∧
    (∃ t, exec (.finish 0) (block Params.p3 5) = .next t) ∧ ∃ t, exec (.finish 0) (block Params.p3 a0) = .next t :=
  ⟨block_ready _ _ (by decide), block_ready _ _ (by decide), rfl, by decide, by decide, ⟨_, rfl⟩, _, rfl⟩

/-- FixedWidthAndSliceAlwaysDiffer: a window that holds the word, and a byte. -/
theorem witness_FixedWidthAndSliceAlwaysDiffer :
    Ready 0 (withWindow [(0, 5)] (block Params.default a0)) ∧ (withWindow [(0, 5)] (block Params.default a0)).cfg.mult.getLsbD 0 = true ∧
    memRead (withWindow [(0, 5)] (block Params.default a0)).win 0 8 = 5 ∧
    byteAt (withWindow [(0, 5)] (block Params.default a0)).win 0 = 5 ∧
    (∃ t, exec (.wu64 0 5) (withWindow [(0, 5)] (block Params.default a0)) = .next t) ∧
    (∃ t, exec (.write 0 8) (withWindow [(0, 5)] (block Params.default a0)) = .next t) ∧
    (∃ t, exec (.wu8 0 5) (withWindow [(0, 5)] (block Params.default a0)) = .next t) ∧
    ∃ t, exec (.write 0 1) (withWindow [(0, 5)] (block Params.default a0)) = .next t :=
  ⟨⟨rfl, rfl⟩, by decide, by decide, by decide, ⟨_, rfl⟩, ⟨_, rfl⟩, ⟨_, rfl⟩, _, rfl⟩

/-- ShortSlicesHaveTheirClosedForms, LongSlicesHaveTheirClosedForm, WriteLeavesTheHiddenRegisters: the lengths at the
bounds of the bands, and the greatest. -/
theorem witness_Slices :
    Ready 0 (block Params.default a0) ∧ ((0 : Word) ≤ 8 ∧ (1 : Word) ≤ 8 ∧ (3 : Word) ≤ 8 ∧ (4 : Word) ≤ 8 ∧ (8 : Word) ≤ 8) ∧
    ((9 : Word) ≤ 9 ∧ (9 : Word) ≤ 16 ∧ (9 : Word) ≤ 17 ∧ (9 : Word) ≤ 0xFFFFFFFFFFFFFFFF) :=
  ⟨block_ready _ _ (by decide), by decide, by decide⟩

/-- SliceLengthAlwaysShows: zero bytes, 1 and 2 of them, and 3 and 8 of them. -/
theorem witness_SliceLengthAlwaysShows :
    Ready 0 (block Params.default a0) ∧ (block Params.default a0).cfg.mult.getLsbD 0 = true ∧
    ((1 : Word) ≤ 1 ∧ (1 : Word) ≤ 8 ∧ (1 : Word) ≤ 2 ∧ (2 : Word) ≤ 8 ∧ (1 : Word) ≠ 2 ∧ packedWord [] 1 = packedWord [] 2) ∧
    ((3 : Word) ≤ 8 ∧ (8 : Word) ≤ 8 ∧ (3 : Word) ≠ 8 ∧ packedWord [] 3 = packedWord [] 8) ∧
    (∃ t, exec (.write 0 1) (withWindow [] (block Params.default a0)) = .next t) ∧
    ∃ t, exec (.write 0 2) (withWindow [] (block Params.default a0)) = .next t :=
  ⟨block_ready _ _ (by decide), by decide, by decide, by decide, ⟨_, rfl⟩, _, rfl⟩

/-- ExchangedBlocksCanCollide: the blocks and keys of V-ORDER-2 (R166): the key is `A0 + 32`. -/
theorem witness_ExchangedBlocksCanCollide :
    (0x1122334455667788 : Word) ^^^ 0x3D27B6C7AD8EF17B = (a0 + 32) ^^^ (a0 + 32 + Params.default.inc) := by decide

/-- AcceptanceStartsTheSliceProcessor: an idle block to which a WRITE on the live slot, one on the dead slot, and an illegal
word are presented; the last two answer. -/
theorem witness_AcceptanceStartsTheSliceProcessor :
    ((given (.stepped ⟨⟨0x7000, 9⟩, []⟩) (block Params.default a0)).ph = .idle ∧
      decode (block Params.default a0).cfg.nsess ⟨0x7000, 9⟩ = .ok (.write 0 9) ∧ isLive 0 (block Params.default a0) = true) ∧
    (decode (block Params.default a0).cfg.nsess ⟨0x7100, 9⟩ = .ok (.write 1 9) ∧ isLive 1 (block Params.default a0) = false) ∧
    (∀ i, decode (block Params.default a0).cfg.nsess ⟨0, 9⟩ ≠ .ok i) ∧
    (∃ t, step (given (.stepped ⟨⟨0x7100, 9⟩, []⟩) (block Params.default a0)) = .next t ∧ t.rspValid = true) :=
  ⟨⟨rfl, by decide⟩, by decide, no_command 2 9, _, rfl, rfl⟩

/-- MicroStepsHaveTheirEffects: in each phase a state whose reads are inside the window. -/
theorem witness_MicroStepsHaveTheirEffects :
    ∀ s ∈ [busy .lenadd 9 0 0, busy .dispatch 9 0 0, busy .b1 1 0 0, busy .b2 2 0 0, busy .b2 3 0 0, busy .b4 4 0 0,
      busy .b4 8 0 0, busy .seed 9 0 0, busy .loop 25 8 17, busy .front 25 16 9, busy .tail 9 0 9, busy .done 0 0 0],
      ∀ r ∈ windowReads s, r.off.toNat + r.bytes ≤ s.len.toNat := by decide

/-- NoOtherPhaseTransitionsExist: every phase has a micro-step that answers, and reset may be presented in the midst. -/
theorem witness_NoOtherPhaseTransitionsExist :
    (∃ t, microStep (busy .idle 0 0 0) = .next t) ∧ (∃ t, microStep (busy .lenadd 9 0 0) = .next t) ∧
    (∃ t, microStep (busy .dispatch 9 0 0) = .next t) ∧ (∃ t, microStep (busy .b1 1 0 0) = .next t) ∧
    (∃ t, microStep (busy .b2 2 0 0) = .next t) ∧ (∃ t, microStep (busy .b4 8 0 0) = .next t) ∧
    (∃ t, microStep (busy .seed 9 0 0) = .next t) ∧ (∃ t, microStep (busy .loop 25 8 17) = .next t) ∧
    (∃ t, microStep (busy .front 9 0 9) = .next t) ∧ (∃ t, microStep (busy .tail 9 0 9) = .next t) ∧
    (∃ t, microStep (busy .done 9 0 9) = .next t) ∧
    (∃ t, step (given (.stepped ⟨⟨0x7000, 9⟩, []⟩) (block Params.default a0)) = .next t ∧ t.ph = .lenadd) ∧
    ((busy .loop 25 8 17).ph ≠ .idle ∧ (∀ rest, (busy .loop 25 8 17).inputs ≠ .reset :: rest) ∧
      (∃ t, step (busy .loop 25 8 17) = .next t) ∧ ∃ t, step (busy .loop 25 0 25) = .next t) ∧
    (given .reset (busy .loop 25 8 17)).inputs = [.reset] :=
  ⟨⟨_, rfl⟩, ⟨_, rfl⟩, ⟨_, rfl⟩, ⟨_, rfl⟩, ⟨_, rfl⟩, ⟨_, rfl⟩, ⟨_, rfl⟩, ⟨_, rfl⟩, ⟨_, rfl⟩, ⟨_, rfl⟩, ⟨_, rfl⟩, ⟨_, rfl, rfl⟩,
    ⟨by decide, by simp [busy, block], ⟨_, rfl⟩, _, rfl⟩, rfl⟩

/-- MicroStepsAgreeWithTheAtomicWrite: an idle block with a ready slot, and each band's count of micro-steps; two blocks that
agree on slot 0 and accept the same WRITE. -/
theorem witness_MicroStepsAgreeWithTheAtomicWrite :
    (twoLive.cfg = (block Params.default a0).cfg ∧ twoLive.win = (block Params.default a0).win ∧
      getAcc 0 twoLive = getAcc 0 (block Params.default a0) ∧ Ready 0 twoLive ∧
      (∃ a, acceptWrite 0 9 twoLive = .next a) ∧ ∃ a, acceptWrite 0 9 (block Params.default a0) = .next a) ∧
    (block Params.default a0).ph = .idle ∧ Ready 0 (block Params.default a0) ∧ microSteps 0 = 3 ∧ microSteps 8 = 4 ∧
    microSteps 9 = 6 ∧ microSteps 25 = 8 :=
  ⟨⟨rfl, rfl, rfl, ⟨rfl, rfl⟩, ⟨_, rfl⟩, _, rfl⟩, rfl, block_ready _ _ (by decide), by decide, by decide, by decide, by decide⟩

/-- NoOtherFaultExists, NotLiveIsRaisedExactlyWithoutASession, LegalityIsCheckedBeforeTheFlag: commands that pass both
checks, only the first, and neither. -/
theorem witness_Checks :
    ((Instr.write 0 9).wf (block Params.default a0).cfg.nsess = true ∧
      ∀ n, (Instr.write 0 9).needs = some n → isLive n (block Params.default a0) = true) ∧
    ((Instr.init 1 0 0).wf (block Params.default a0).cfg.nsess = true ∧
      ∀ n, (Instr.init 1 0 0).needs = some n → isLive n (block Params.default a0) = true) ∧
    ((Instr.copy 0 1).wf (block Params.default a0).cfg.nsess = true ∧ isLive 1 (block Params.default a0) = false) ∧
    (Instr.finish 2).wf (block Params.default a0).cfg.nsess = false ∧
    (∀ i, decode (block Params.default a0).cfg.nsess ⟨0, 0⟩ ≠ .ok i) := by
  refine ⟨⟨by decide, ?_⟩, ⟨by decide, ?_⟩, by decide, by decide, no_command 2 0⟩
  · intro n h
    cases h
    rfl
  · intro n h
    cases h

/-- FaultsChangeNothingButTheResponse: both faults, atomically and at the acceptance of a WRITE. -/
theorem witness_FaultsChangeNothingButTheResponse :
    (∃ t, exec (.wu8 1 5) (block Params.default a0) = .next t ∧ t.rsp.status ≠ .ok) ∧
    (∃ t, exec (.wu8 2 5) (block Params.default a0) = .next t ∧ t.rsp.status ≠ .ok) ∧
    (∃ t, startCommand ⟨⟨0x7100, 9⟩, []⟩ (block Params.default a0) = .next t ∧ t.rspValid = true ∧ t.rsp.status ≠ .ok) :=
  ⟨⟨_, rfl, by decide⟩, ⟨_, rfl, by decide⟩, _, rfl, rfl, by decide⟩

/-- SlotsAreIndependent: two states that agree on slot 0 and differ on slot 1, and a COPY that succeeds. -/
theorem witness_SlotsAreIndependent :
    twoLive.cfg = (block Params.default a0).cfg ∧ twoLive.win = (block Params.default a0).win ∧
    SameSlot 0 (block Params.default a0) twoLive ∧ isLive 1 twoLive ≠ isLive 1 (block Params.default a0) ∧
    (∃ t, exec (.wu8 0 5) (block Params.default a0) = .next t) ∧ (∃ t, exec (.wu8 0 5) twoLive = .next t) ∧
    ∃ t, exec (.copy 1 0) twoLive = .next t ∧ t.rsp.status = .ok :=
  ⟨rfl, rfl, ⟨rfl, rfl⟩, by decide, ⟨_, rfl⟩, ⟨_, rfl⟩, _, rfl, rfl⟩

/-- CommandsKeepTheRestOfTheMachine, ResponseDataIsZeroOrTheDigest: a command that is not WRITE answers, and so do WRITE, FINISH that succeeds and
FINISH that does not. -/
theorem witness_CommandsKeepTheRestOfTheMachine :
    (∃ t, exec (.wu8 0 5) (block Params.default a0) = .next t ∧ (Instr.wu8 0 5).opcode ≠ .write) ∧
    (∃ t, exec (.write 0 1) (block Params.default a0) = .next t) ∧
    (∃ t, exec (.finish 0) (block Params.default a0) = .next t ∧ t.rsp.status = .ok) ∧
    ∃ t, exec (.finish 1) (block Params.default a0) = .next t ∧ t.rsp.status ≠ .ok :=
  ⟨⟨_, rfl, by decide⟩, ⟨_, rfl⟩, ⟨_, rfl, rfl⟩, _, rfl, by decide⟩

/-- OnlyInitAndCopyMakeSlotsLive: INIT and COPY make slot 1 live, and slot 0 stays live. -/
theorem witness_OnlyInitAndCopyMakeSlotsLive :
    (∃ t, exec (.init 1 0 0) (block Params.default a0) = .next t ∧ isLive 1 t = true ∧
      isLive 1 (block Params.default a0) = false ∧ isLive 0 (block Params.default a0) = true) ∧
    ∃ t, exec (.copy 1 0) (block Params.default a0) = .next t ∧ isLive 1 t = true :=
  ⟨⟨_, rfl, by decide, by decide, by decide⟩, _, rfl, by decide⟩

/-- NothingSucceedsBeforeTheFirstInit: the reset state, and a sequence without INIT. -/
theorem witness_NothingSucceedsBeforeTheFirstInit :
    NothingLive State.reset ∧ ∀ c ∈ [(Instr.wu8 0 5, ([] : Memory)), (Instr.copy 1 0, []), (Instr.finish 2, [])],
      c.1.opcode ≠ .init := by
  refine ⟨?_, by decide⟩
  intro j
  simp [isLive, State.reset, State.powerOn]

/-- EqualSlotsStayEqual: two ready slots with equal accumulators, and a sequence without COPY. -/
theorem witness_EqualSlotsStayEqual :
    (0 : Slot) ≠ 1 ∧ Ready 0 twoLive ∧ Ready 1 twoLive ∧ getAcc 0 twoLive = getAcc 1 twoLive ∧
    ∀ c ∈ [(Instr.wu8 0 5, ([] : Memory)), (Instr.write 0 9, window16), (Instr.finish 0, [])], c.1.opcode ≠ .copy :=
  ⟨by decide, ⟨rfl, rfl⟩, ⟨rfl, rfl⟩, by decide, by decide⟩

/-- UnspecifiedValuesNeverReachAResponse: two blocks that differ in the accumulator of slot 1, which is not live, and in every
hidden register. -/
theorem witness_UnspecifiedValuesNeverReachAResponse :
    SameSessions (block Params.default a0) (setAcc 1 7 (busy .idle 9 8 7)) ∧
    getAcc 1 (setAcc 1 7 (busy .idle 9 8 7)) ≠ getAcc 1 (block Params.default a0) :=
  ⟨⟨rfl, fun _ => rfl, (by decide : ∀ j : Slot, isLive j (block Params.default a0) = true →
    getAcc j (setAcc 1 7 (busy .idle 9 8 7)) = getAcc j (block Params.default a0))⟩, by decide⟩

/-- AStepRunsTheDecodedCommand: a command presented atomically, an illegal word, a command presented for micro-steps that is
not WRITE, and a table word. -/
theorem witness_AStepRunsTheDecodedCommand :
    ((given (.command ⟨⟨0x2000, 5⟩, []⟩) (block Params.default a0)).ph = .idle ∧
      decode (block Params.default a0).cfg.nsess ⟨0x2000, 5⟩ = .ok (.wu8 0 5)) ∧
    (∀ i, decode (block Params.default a0).cfg.nsess ⟨0, 5⟩ ≠ .ok i) ∧
    ((given (.stepped ⟨⟨0x2000, 5⟩, []⟩) (block Params.default a0)).ph = .idle ∧ (Instr.wu8 0 5).opcode ≠ .write) ∧
    decode (busy .tail 9 0 9).cfg.nsess (wordsOfTable 16 0x8000) = .ok (.finish 0) :=
  ⟨⟨rfl, by decide⟩, no_command 2 5, ⟨rfl, by decide⟩, by decide⟩

/-- BusyBlocksAcceptNoCommandAndIdleBlocksWait: a busy block with a command presented, in both ways, with nothing and with a tick, and an idle one with
nothing and with a tick. -/
theorem witness_BusyBlocksAcceptNoCommandAndIdleBlocksWait :
    (given (.command ⟨⟨0x2000, 5⟩, []⟩) (busy .lenadd 9 0 0)).ph ≠ .idle ∧
    (∃ t, step (given (.command ⟨⟨0x2000, 5⟩, []⟩) (busy .lenadd 9 0 0)) = .next t) ∧
    (given (.stepped ⟨⟨0x2000, 5⟩, []⟩) (busy .done 9 0 0)).ph ≠ .idle ∧
    ((busy .done 9 0 0).ph ≠ .idle ∧ (busy .done 9 0 0).inputs = []) ∧
    ((given .tick (busy .done 9 0 0)).ph ≠ .idle ∧ (given .tick (busy .done 9 0 0)).inputs = [.tick]) ∧
    (block Params.default a0).inputs = [] ∧ (given .tick (block Params.default a0)).inputs = [.tick] :=
  ⟨by decide, ⟨_, rfl⟩, by decide, ⟨by decide, rfl⟩, ⟨by decide, rfl⟩, rfl, rfl⟩

/-- ResetLosesEverySessionAndAnyCommandInProgress: reset on an idle block and in the midst of a WRITE; a command that needs
a session. -/
theorem witness_ResetLosesEverySessionAndAnyCommandInProgress :
    (given .reset (block Params.default a0)).inputs = [.reset] ∧ (given .reset (busy .front 9 0 9)).inputs = [.reset] ∧
    (Instr.finish 0).needs = some 0 ∧ (Instr.finish 0).wf 2 = true := ⟨rfl, rfl, rfl, by decide⟩

/-- EveryStepKeepsTheInvariant, NoStepStopsUnderTheInvariant: states of the invariant that are not the reset state, busy in
each phase with registers, and idle with a session. -/
theorem witness_Inv :
    Inv (busy .idle 0 0 0) ∧ Inv (busy .lenadd 9 0 0) ∧ Inv (busy .dispatch 9 0 0) ∧ Inv (busy .b1 1 0 0) ∧
    Inv (busy .seed 9 0 0) ∧ Inv (busy .loop 25 8 17) ∧ Inv (busy .done 0 0 0) ∧
    (∃ t, step (busy .loop 25 8 17) = .next t) := by
  refine ⟨busy_inv ?_, busy_inv ?_, busy_inv ?_, busy_inv ?_, busy_inv ?_, busy_inv ?_, busy_inv ?_, _, rfl⟩ <;>
  simp [PhaseBounds, BulkPosition, busy]

/-- ConstantsNeverChange: a step of an idle block and one of a busy block. -/
theorem witness_ConstantsNeverChange :
    (∃ t, step (given .reset (block Params.p3 a0)) = .next t) ∧ ∃ t, step (busy .seed 9 0 0) = .next t :=
  ⟨⟨_, rfl⟩, _, rfl⟩

end Sys2Proof.Tests
end

/-! ## The step lemma of the invariant (00_scope.md R9 to R11, 10_state.md R25, 43_slice_write.md R153, R157 to R159) -/

namespace Sys2Proof.Machine

/-! ### What a command leaves unchanged -/

/-- The effect of a command is confined to slots, hidden registers and response (R30, R34, R41). -/
theorem effect_frame (i : Instr) (s : State) : CommandFrame s (effect i s) := by
  cases i <;> exact ⟨rfl, rfl, rfl, fun _ => rfl, rfl, rfl⟩

theorem effect_isLive_other {i : Instr} {j : Slot} (h : j ≠ i.dest) (s : State) :
    isLive j (effect i s) = isLive j s := by
  cases i with
  | init sd key0 key1 => exact isLive_setLive_other h _
  | copy sd ss => exact isLive_setLive_other h _
  | wu8 sd v | wu16 sd v | wu32 sd v | wu64 sd v | wu128 sd lo hi | write sd len | finish sd => rfl

/-- A well-formed command's destination exists (R68). -/
theorem dest_inRange {n : Nat} {i : Instr} (h : i.wf n = true) : Slot.inRange n i.dest = true := by
  cases i with
  | copy sd ss => exact (Bool.and_eq_true_iff.1 h).1
  | init sd key0 key1 | wu8 sd v | wu16 sd v | wu32 sd v | wu64 sd v | wu128 sd lo hi | write sd len | finish sd => exact h

/-- A well-formed command does not touch the flag of a slot that the block lacks. -/
theorem effect_isLive_outOfRange {i : Instr} {s : State} {j : Slot} (hw : i.wf s.cfg.nsess = true)
    (hj : Slot.inRange s.cfg.nsess j = false) : isLive j (effect i s) = isLive j s := by
  refine effect_isLive_other ?_ s
  rintro rfl
  simp [dest_inRange hw] at hj

/-! ### The bounds of each phase -/

theorem phaseBounds_idle {s : State} (h : s.ph = .idle) : PhaseBounds s := by simp [PhaseBounds, h]

theorem phaseBounds_done {s : State} (h : s.ph = .done) : PhaseBounds s := by simp [PhaseBounds, h]

theorem phaseBounds_seed {s : State} (h : s.ph = .seed) : PhaseBounds s ↔ 9 ≤ s.len := by simp [PhaseBounds, h]

theorem phaseBounds_loop {s : State} (h : s.ph = .loop) : PhaseBounds s ↔ BulkPosition s ∧ 16 < s.rem := by
  simp [PhaseBounds, h]

theorem phaseBounds_front {s : State} (h : s.ph = .front) :
    PhaseBounds s ↔ BulkPosition s ∧ 9 ≤ s.rem ∧ s.rem ≤ 16 := by simp [PhaseBounds, h]

theorem phaseBounds_tail {s : State} (h : s.ph = .tail) :
    PhaseBounds s ↔ BulkPosition s ∧ 9 ≤ s.rem ∧ s.rem ≤ 16 := by simp [PhaseBounds, h]

/-- `DISPATCH` selects a phase whose bounds the length meets (R153). -/
theorem dispatch_meets_bounds (s : State) : PhaseBounds { s with ph := bandPhase s.len } := by
  unfold bandPhase
  split_ifs with h0 h1 h3 h8
  · exact phaseBounds_done rfl
  · exact h1
  · exact ⟨by bv_omega, h3⟩
  · exact ⟨by bv_omega, h8⟩
  · exact (phaseBounds_seed rfl).2 (by bv_omega)

/-- `SEED` and `LOOP` end in the same choice: with at least 9 bytes left, either phase they choose has its bounds
(R157, R158). -/
theorem bulk_choice_meets_bounds {s : State} (hb : BulkPosition s) (hr : 9 ≤ s.rem)
    (hp : s.ph = if 16 < s.rem then .loop else .front) : PhaseBounds s := by
  by_cases h : 16 < s.rem
  · exact (phaseBounds_loop (hp.trans (if_pos h))).2 ⟨hb, h⟩
  · exact (phaseBounds_front (hp.trans (if_neg h))).2 ⟨hb, hr, BitVec.not_lt.1 h⟩

/-- `SEED` starts the bulk path at the front of the slice (R157). -/
theorem seed_meets_bounds {s t : State} (hl : 9 ≤ s.len) (h : stepSeed s = .next t) : PhaseBounds t := by
  cases h
  exact bulk_choice_meets_bounds ⟨hl, rfl, by simp⟩ hl rfl

/-- `LOOP` consumes 8 bytes and leaves at least 9: neither `pos` nor `rem` wraps (R158). -/
theorem loop_meets_bounds {s t : State} (hb : BulkPosition s) (hr : 16 < s.rem) (h : stepLoop s = .next t) :
    PhaseBounds t := by
  obtain ⟨hlen, hpos, hsum⟩ := hb
  cases (withRead_next h).2
  have hpos8 : (s.pos + 8).toNat = s.pos.toNat + 8 := by bv_omega
  have hrem8 : (s.rem - 8).toNat = s.rem.toNat - 8 := by bv_omega
  have h16 : 16 < s.rem.toNat := hr
  refine bulk_choice_meets_bounds ⟨hlen, ?_, ?_⟩ ?_ rfl
  · show (s.pos + 8).toNat % 8 = 0
    omega
  · show (s.pos + 8).toNat + (s.rem - 8).toNat = s.len.toNat
    omega
  · show 9 ≤ s.rem - 8
    bv_omega

/-- Every micro-step leads from the bounds of its phase to those of the next (R152 to R161). -/
theorem microStep_keeps_bounds {s t : State} (hb : PhaseBounds s) (h : microStep s = .next t) : PhaseBounds t := by
  cases hp : s.ph <;> simp only [microStep, hp] at h
  case idle => cases h; exact hb
  case lenadd => cases h; exact trivial
  case dispatch => cases h; exact dispatch_meets_bounds s
  case b1 => cases (withRead_next h).2; exact phaseBounds_done rfl
  case b2 => cases (withRead_next (withRead_next h).2).2; exact phaseBounds_done rfl
  case b4 => cases (withRead_next (withRead_next h).2).2; exact phaseBounds_done rfl
  case seed => exact seed_meets_bounds ((phaseBounds_seed hp).1 hb) h
  case loop =>
    obtain ⟨hbulk, hrem⟩ := (phaseBounds_loop hp).1 hb
    exact loop_meets_bounds hbulk hrem h
  case front => cases (withRead_next h).2; exact (phaseBounds_tail rfl).2 ((phaseBounds_front hp).1 hb)
  case tail => cases (withRead_next h).2; exact phaseBounds_done rfl
  case done => cases h; exact phaseBounds_idle rfl

/-! ### Everything a step is made of keeps the invariant -/

/-- An idle block meets the invariant when its parameters, flags and windows do: no WRITE is in progress. -/
theorem inv_of_idle {s : State} (hp : s.ph = .idle) (hc : s.cfg.Legal)
    (hs : ∀ j : Slot, Slot.inRange s.cfg.nsess j = false → isLive j s = false) (hw : Memory.wf s.win = true)
    (hi : ∀ x ∈ s.inputs, inputWindowOk x = true) : Inv s :=
  ⟨hc, hs, hw, hi, fun hn => absurd hp hn, phaseBounds_idle hp⟩

theorem respond_keeps_inv {s : State} (hi : Inv s) (st : Status) (d : Word) : Inv (respond st d s) :=
  ⟨hi.legal, hi.slots, hi.window, hi.windows, hi.session, hi.bounds⟩

theorem openCommand_keeps_inv {s : State} (hi : Inv s) {c : Command} (hc : Memory.wf c.win = true) :
    Inv (openCommand c s) :=
  ⟨hi.legal, hi.slots, hc, hi.windows, hi.session, hi.bounds⟩

/-- The host's next move is taken from its list. -/
theorem inputs_tail_keeps_inv {s : State} {x : HostInput} {rest : List HostInput} (hi : Inv s)
    (h : s.inputs = x :: rest) : Inv { s with inputs := rest } :=
  ⟨hi.legal, hi.slots, hi.window, fun y hy => hi.windows y (h ▸ List.mem_cons_of_mem x hy), hi.session, hi.bounds⟩

theorem applyReset_keeps_inv {s : State} (hi : Inv s) : Inv (applyReset s) :=
  inv_of_idle rfl hi.legal (fun j _ => isLive_applyReset j s) rfl hi.windows

theorem effect_keeps_inv {i : Instr} {s : State} (hi : Inv s) (hp : s.ph = .idle) (hw : i.wf s.cfg.nsess = true) :
    Inv (effect i s) := by
  obtain ⟨hcfg, hph, hwin, -, hins, -⟩ := effect_frame i s
  refine inv_of_idle (hph.trans hp) (hcfg ▸ hi.legal) (fun j hj => ?_) (hwin ▸ hi.window) (hins ▸ hi.windows)
  rw [hcfg] at hj
  exact (effect_isLive_outOfRange hw hj).trans (hi.slots j hj)

theorem exec_keeps_inv {i : Instr} {s t : State} (hi : Inv s) (hp : s.ph = .idle) (h : exec i s = .next t) : Inv t := by
  rcases exec_next_cases h with ⟨-, rfl⟩ | ⟨-, -, rfl⟩ | ⟨hw, -, rfl⟩
  · exact respond_keeps_inv hi _ _
  · exact respond_keeps_inv hi _ _
  · exact effect_keeps_inv hi hp hw

theorem raise_keeps_inv {st : Status} {s t : State} (hi : Inv s) (h : raise st s = .next t) : Inv t :=
  raise_next.1 h ▸ respond_keeps_inv hi st 0

/-- An accepted WRITE works on a ready slot, and `LENADD` assumes nothing of its length (R151). -/
theorem acceptWrite_keeps_inv {sd : Slot} {len : Word} {s t : State} (hi : Inv s) (h : acceptWrite sd len s = .next t) :
    Inv t := by
  rcases acceptWrite_cases sd len s with ⟨-, e⟩ | ⟨-, -, e⟩ | ⟨hready, e⟩ <;> rw [e] at h
  · exact raise_keeps_inv hi h
  · exact raise_keeps_inv hi h
  · cases h
    exact ⟨hi.legal, hi.slots, hi.window, hi.windows, fun _ => hready, trivial⟩

theorem transact_keeps_inv {c : Command} {s t : State} (hi : Inv s) (hp : s.ph = .idle) (hc : Memory.wf c.win = true)
    (h : transact c s = .next t) : Inv t := by
  have ho := openCommand_keeps_inv hi hc
  rcases transact_cases c s with ⟨-, e⟩ | ⟨i, -, e⟩ <;> rw [e] at h
  · exact raise_keeps_inv ho h
  · exact exec_keeps_inv ho hp h

theorem startCommand_keeps_inv {c : Command} {s t : State} (hi : Inv s) (hp : s.ph = .idle)
    (hc : Memory.wf c.win = true) (h : startCommand c s = .next t) : Inv t := by
  have ho := openCommand_keeps_inv hi hc
  rcases startCommand_cases c s with ⟨-, e⟩ | ⟨sd, len, -, e⟩ | ⟨i, -, -, e⟩ <;> rw [e] at h
  · exact raise_keeps_inv ho h
  · exact acceptWrite_keeps_inv ho h
  · exact exec_keeps_inv ho hp h

/-- A micro-step stays on the slot and the length of the WRITE in progress. -/
theorem microStep_keeps_inv {s t : State} (hi : Inv s) (hp : s.ph ≠ .idle) (h : microStep s = .next t) : Inv t := by
  obtain ⟨hcfg, hlive, -, hcur, hwin, hins, -⟩ := microStep_frame h
  have hisLive (j : Slot) : isLive j t = isLive j s := by rw [isLive, isLive, hlive]
  have hready : Ready t.cur t := by
    rw [Ready, hisLive, hcfg, hcur]
    exact hi.session hp
  refine ⟨hcfg ▸ hi.legal, fun j hj => ?_, hwin ▸ hi.window, hins ▸ hi.windows, fun _ => hready,
    microStep_keeps_bounds hi.bounds h⟩
  rw [hcfg] at hj
  exact (hisLive j).trans (hi.slots j hj)

theorem idleStep_keeps_inv {s t : State} (hi : Inv s) (hp : s.ph = .idle) (h : idleStep s = .next t) : Inv t := by
  cases hins : s.inputs with
  | nil =>
    rw [idleStep, hins] at h
    cases h
    exact hi
  | cons x rest =>
    have ht := inputs_tail_keeps_inv hi hins
    have hx : inputWindowOk x = true := hi.windows x (by simp [hins])
    rw [idleStep, hins] at h
    cases x with
    | tick => cases h; exact ht
    | reset => cases h; exact applyReset_keeps_inv ht
    | command c => exact transact_keeps_inv ht hp hx h
    | stepped c => exact startCommand_keeps_inv ht hp hx h

theorem busyStep_keeps_inv {s t : State} (hi : Inv s) (hp : s.ph ≠ .idle) (h : busyStep s = .next t) : Inv t := by
  cases hins : s.inputs with
  | nil =>
    rw [busyStep, hins] at h
    exact microStep_keeps_inv hi hp h
  | cons x rest =>
    have ht := inputs_tail_keeps_inv hi hins
    rw [busyStep, hins] at h
    cases x with
    | tick => exact microStep_keeps_inv ht hp h
    | reset => cases h; exact applyReset_keeps_inv ht
    | command c => exact microStep_keeps_inv hi hp h
    | stepped c => exact microStep_keeps_inv hi hp h

theorem step_keeps_inv {s t : State} (hi : Inv s) (h : step s = .next t) : Inv t := by
  by_cases hp : s.ph = .idle
  · exact idleStep_keeps_inv hi hp ((step_idle hp).symm.trans h)
  · exact busyStep_keeps_inv hi hp ((step_busy hp).symm.trans h)

/-- Settles O58: an idle block takes a move of the host, a busy one makes a micro-step or is reset, and each of these keeps
the invariant. -/
theorem everyStepKeepsTheInvariant : Obligations.EveryStepKeepsTheInvariant :=
  fun _ _ => step_keeps_inv

end Sys2Proof.Machine

/-! ## The state: slots, frames, response and constants (10_state.md R22, R23, R28, R30, R34) -/

namespace Sys2Proof.Machine

/-! ### The answer of a command from its two checks (R192, R194) -/

/-- A command naming a slot that the block lacks is illegal. -/
theorem exec_illegal {i : Instr} {s : State} (hw : i.wf s.cfg.nsess = false) :
    exec i s = raise .illegalCommand s := by
  rcases exec_cases i s with ⟨-, e⟩ | ⟨hw', -⟩ | ⟨hw', -⟩
  · exact e
  · simp [hw] at hw'
  · simp [hw] at hw'

/-- A legal command that needs a session and finds none. -/
theorem exec_notLive {i : Instr} {s : State} {n : Slot} (hw : i.wf s.cfg.nsess = true) (hn : i.needs = some n)
    (hl : isLive n s = false) : exec i s = raise .notLive s := by
  rcases exec_cases i s with ⟨hw', -⟩ | ⟨-, -, e⟩ | ⟨-, hm, -⟩
  · simp [hw] at hw'
  · exact e
  · simp [hm n hn] at hl

/-- A legal command whose session is there has its effect. -/
theorem exec_effect {i : Instr} {s : State} (hw : i.wf s.cfg.nsess = true) (hm : NeedsMet i s) :
    exec i s = .next (effect i s) := by
  rcases exec_cases i s with ⟨hw', -⟩ | ⟨-, ⟨n, hn, hl⟩, -⟩ | ⟨-, -, e⟩
  · simp [hw] at hw'
  · simp [hm n hn] at hl
  · exact e

/-- The two outcomes of a command, the names of the faults apart (R193). -/
theorem exec_next_fault_or_effect {i : Instr} {s t : State} (h : exec i s = .next t) :
    (∃ st, st ≠ .ok ∧ t = respond st 0 s) ∨ (NeedsMet i s ∧ t = effect i s) := by
  rcases exec_next_cases h with ⟨-, rfl⟩ | ⟨-, -, rfl⟩ | ⟨-, hm, rfl⟩
  · exact .inl ⟨_, by decide, rfl⟩
  · exact .inl ⟨_, by decide, rfl⟩
  · exact .inr ⟨hm, rfl⟩

/-- Status OK tells that a command had its effect. -/
theorem exec_next_ok {i : Instr} {s t : State} (h : exec i s = .next t) (hok : t.rsp.status = .ok) :
    t = effect i s := by
  rcases exec_next_fault_or_effect h with ⟨st, hst, rfl⟩ | ⟨-, rfl⟩
  · exact absurd hok hst
  · rfl

/-! ### What the effect of a command leaves in each part of the state -/

theorem effect_getAcc_other {i : Instr} {j : Slot} (h : j ≠ i.dest) (s : State) :
    getAcc j (effect i s) = getAcc j s := by
  cases i with
  | init sd key0 key1 | copy sd ss | wu8 sd v | wu16 sd v | wu32 sd v | wu64 sd v | wu128 sd lo hi =>
    exact getAcc_setAcc_other h _ _
  | write sd len => exact getAcc_commitSlice_other h _ _ _
  | finish sd => rfl

/-- INIT and COPY start a session in their destination (R110, R114). -/
theorem effect_isLive_dest {i : Instr} (h : i.opcode = .init ∨ i.opcode = .copy) (s : State) :
    isLive i.dest (effect i s) = true := by
  cases i with
  | init sd key0 key1 => exact isLive_setLive_same sd _
  | copy sd ss => exact isLive_setLive_same sd _
  | wu8 sd v | wu16 sd v | wu32 sd v | wu64 sd v | wu128 sd lo hi | write sd len | finish sd =>
    simp [Instr.opcode] at h

/-- Every other command leaves all flags alone (R22). -/
theorem effect_live {i : Instr} (h : ¬(i.opcode = .init ∨ i.opcode = .copy)) (s : State) :
    (effect i s).live = s.live := by
  cases i with
  | init sd key0 key1 | copy sd ss => simp [Instr.opcode] at h
  | wu8 sd v | wu16 sd v | wu32 sd v | wu64 sd v | wu128 sd lo hi | write sd len | finish sd => rfl

/-- Only WRITE uses the slice processor (R24 to R26). -/
theorem effect_hidden {i : Instr} (h : i.opcode ≠ .write) (s : State) : HiddenFrame s (effect i s) := by
  cases i with
  | write sd len => exact absurd rfl h
  | init sd key0 key1 | copy sd ss | wu8 sd v | wu16 sd v | wu32 sd v | wu64 sd v | wu128 sd lo hi | finish sd =>
    exact ⟨rfl, rfl, rfl, rfl, rfl⟩

/-- The response of a command that has its effect: the digest for FINISH, 0 for every other command (R28). -/
theorem effect_rsp (i : Instr) (s : State) :
    (effect i s).rsp = ⟨.ok, if i.opcode = .finish then mix s.cfg.mult (getAcc i.dest s) else 0⟩ := by
  cases i <;> rfl

/-! ### Frames of a command -/

theorem exec_frame {i : Instr} {s t : State} (h : exec i s = .next t) : CommandFrame s t := by
  rcases exec_next_fault_or_effect h with ⟨st, -, rfl⟩ | ⟨-, rfl⟩
  · exact ⟨rfl, rfl, rfl, fun _ => rfl, rfl, rfl⟩
  · exact effect_frame i s

theorem exec_hiddenFrame {i : Instr} {s t : State} (h : exec i s = .next t) (hi : i.opcode ≠ .write) :
    HiddenFrame s t := by
  rcases exec_next_fault_or_effect h with ⟨st, -, rfl⟩ | ⟨-, rfl⟩
  · exact ⟨rfl, rfl, rfl, rfl, rfl⟩
  · exact effect_hidden hi s

theorem exec_otherSlotsFrame {i : Instr} {s t : State} (h : exec i s = .next t) : OtherSlotsFrame i.dest s t := by
  rcases exec_next_fault_or_effect h with ⟨st, -, rfl⟩ | ⟨-, rfl⟩
  · exact ⟨fun _ _ => rfl, fun _ _ => rfl⟩
  · exact ⟨fun _ hj => effect_getAcc_other hj s, fun _ hj => effect_isLive_other hj s⟩

/-- FINISH is read-only but for the response (R180). -/
theorem exec_finish_slots {sd : Slot} {s t : State} (h : exec (.finish sd) s = .next t) :
    t.acc = s.acc ∧ t.live = s.live := by
  rcases exec_next_fault_or_effect h with ⟨st, -, rfl⟩ | ⟨-, rfl⟩
  · exact ⟨rfl, rfl⟩
  · exact ⟨rfl, rfl⟩

/-- Settles O47: a fault changes the response alone, and the effect of each command is confined. -/
theorem commandsKeepTheRestOfTheMachine : Obligations.CommandsKeepTheRestOfTheMachine :=
  ⟨fun _ _ _ => exec_frame, fun _ _ _ => exec_hiddenFrame, fun _ _ _ => exec_finish_slots⟩

/-! ### Slots are independent (R23) -/

/-- The accumulator that WRITE computes does not depend on the hidden registers it finds: the short bands do not use them
and the bulk path sets them (R141 to R146). -/
theorem absorbSlice_acc_congr (p : Params) (m : Memory) (len : Word) {r r' : SliceRegs} (h : r'.a = r.a) :
    (absorbSlice p m len r').a = (absorbSlice p m len r).a := by
  unfold absorbSlice
  split_ifs <;> simp only [h]

/-- What a command leaves in its destination depends on the destination and the slot it needs alone. -/
theorem effect_sameSlot {i : Instr} {s s' : State} (hc : s'.cfg = s.cfg) (hw : s'.win = s.win)
    (hd : SameSlot i.dest s s') (hn : ∀ n, i.needs = some n → SameSlot n s s') :
    SameSlot i.dest (effect i s) (effect i s') := by
  obtain ⟨hacc, hlive⟩ := hd
  cases i with
  | init sd key0 key1 => exact ⟨by simp [effect, Instr.dest], by simp [effect, Instr.dest]⟩
  | copy sd ss =>
    obtain ⟨hsrc, -⟩ := hn ss rfl
    exact ⟨by simp [effect, Instr.dest, hsrc], by simp [effect, Instr.dest]⟩
  | wu8 sd v | wu16 sd v | wu32 sd v | wu64 sd v | wu128 sd lo hi =>
    have hsd : getAcc sd s' = getAcc sd s := hacc
    exact ⟨by simp [effect, Instr.dest, hc, hsd], hlive⟩
  | write sd len =>
    have hsd : getAcc sd s' = getAcc sd s := hacc
    refine ⟨?_, hlive⟩
    simp only [effect, Instr.dest, getAcc_respond, getAcc_commitSlice_same, hc, hw]
    exact absorbSlice_acc_congr _ _ _ (by simp [hsd])
  | finish sd => exact ⟨hacc, hlive⟩

/-- The response of a command that has its effect depends on the destination's accumulator alone. -/
theorem effect_rsp_congr {i : Instr} {s s' : State} (hc : s'.cfg = s.cfg) (hd : SameSlot i.dest s s') :
    (effect i s').rsp = (effect i s).rsp := by
  obtain ⟨hacc, -⟩ := hd
  rw [effect_rsp, effect_rsp, hc, hacc]

/-- Both checks turn out alike in states that agree on the parameters and on the slot needed, so that a command faults in both
or has its effect in both. -/
theorem exec_sameSlot {i : Instr} {s s' t t' : State} (hc : s'.cfg = s.cfg) (hw : s'.win = s.win)
    (hd : SameSlot i.dest s s') (hn : ∀ n, i.needs = some n → SameSlot n s s')
    (h : exec i s = .next t) (h' : exec i s' = .next t') : SameSlot i.dest t t' ∧ t'.rsp = t.rsp := by
  rcases exec_next_cases h with ⟨hwf, rfl⟩ | ⟨hwf, ⟨n, hneed, hdead⟩, rfl⟩ | ⟨hwf, hmet, rfl⟩ <;> rw [← hc] at hwf
  · rw [exec_illegal hwf, raise_next] at h'
    subst h'
    exact ⟨hd, rfl⟩
  · rw [exec_notLive hwf hneed ((hn n hneed).2.trans hdead), raise_next] at h'
    subst h'
    exact ⟨hd, rfl⟩
  · rw [exec_effect hwf fun n hneed => (hn n hneed).2.trans (hmet n hneed)] at h'
    cases h'
    exact ⟨effect_sameSlot hc hw hd hn, effect_rsp_congr hc hd⟩

/-- A COPY that succeeds leaves equal values in its two slots, which may be one and the same (R114). -/
theorem exec_copy_equal {sd ss : Slot} {s t : State} (h : exec (.copy sd ss) s = .next t) (hok : t.rsp.status = .ok) :
    getAcc sd t = getAcc ss t := by
  by_cases e : ss = sd
  · rw [e]
  · rw [(exec_otherSlotsFrame h).acc ss e, exec_next_ok h hok]
    simp [effect]

/-- Settles O46: the frame of the other slots, the agreement of both checks and of the effect, and what COPY stores. -/
theorem slotsAreIndependent : Obligations.SlotsAreIndependent :=
  ⟨fun _ _ _ => exec_otherSlotsFrame, fun _ _ _ _ _ => exec_sameSlot, fun _ _ _ _ => exec_copy_equal⟩

/-! ### Live flags (R22, R113) -/

/-- COPY reads a source. -/
theorem needs_of_copy {i : Instr} (h : i.opcode = .copy) : ∃ n, i.needs = some n := by
  cases i with
  | copy sd ss => exact ⟨ss, rfl⟩
  | init sd key0 key1 | wu8 sd v | wu16 sd v | wu32 sd v | wu64 sd v | wu128 sd lo hi | write sd len | finish sd =>
    simp [Instr.opcode] at h

theorem effect_keeps_live {i : Instr} {s : State} {j : Slot} (h : isLive j s = true) : isLive j (effect i s) = true := by
  by_cases hstart : i.opcode = .init ∨ i.opcode = .copy
  · by_cases hj : j = i.dest
    · exact hj ▸ effect_isLive_dest hstart s
    · exact (effect_isLive_other hj s).trans h
  · rwa [isLive, effect_live hstart]

/-- A slot that becomes live is the destination of a command that starts a session. -/
theorem effect_new_live {i : Instr} {s : State} {j : Slot} (h : isLive j (effect i s) = true) (hs : isLive j s = false) :
    j = i.dest ∧ (i.opcode = .init ∨ i.opcode = .copy) := by
  constructor
  · by_contra hj
    simp [effect_isLive_other hj, hs] at h
  · by_contra hstart
    rw [isLive, effect_live hstart] at h
    simp [isLive, h] at hs

/-- Settles O48: a fault changes no flag; of the commands that have their effect only INIT and COPY set one, and COPY had the
session it needs. -/
theorem onlyInitAndCopyMakeSlotsLive : Obligations.OnlyInitAndCopyMakeSlotsLive := by
  intro i s t j h
  rcases exec_next_fault_or_effect h with ⟨st, -, rfl⟩ | ⟨hmet, rfl⟩
  · exact ⟨id, fun hlive hdead => by simp [hdead] at hlive⟩
  · refine ⟨effect_keeps_live, fun hlive hdead => ?_⟩
    obtain ⟨hj, hstart⟩ := effect_new_live hlive hdead
    refine ⟨hj, hstart.imp_right fun hcopy => ⟨hcopy, ?_⟩⟩
    obtain ⟨n, hn⟩ := needs_of_copy hcopy
    exact ⟨n, hn, hmet n hn⟩

/-! ### The response (R28) -/

theorem statusCode_ne_three (st : Status) : statusCode st ≠ 3 := by cases st <;> decide

/-- The data of every response: 0 but for the digest of a successful FINISH. -/
theorem exec_data {i : Instr} {s t : State} (h : exec i s = .next t) :
    t.rsp.data = if i.opcode = .finish ∧ t.rsp.status = .ok then mix s.cfg.mult (getAcc i.dest s) else 0 := by
  rcases exec_next_fault_or_effect h with ⟨st, hst, rfl⟩ | ⟨-, rfl⟩
  · simp [hst]
  · simp [effect_rsp]

theorem exec_rspValid {i : Instr} {s t : State} (h : exec i s = .next t) : t.rspValid = true := by
  rcases exec_next_fault_or_effect h with ⟨st, -, rfl⟩ | ⟨-, rfl⟩
  · rfl
  · exact effect_rspValid i s

theorem effect_ignores_response (i : Instr) (s : State) (r : Response) (b : Bool) :
    effect i { s with rsp := r, rspValid := b } = effect i s := by
  cases i <;> rfl

/-- No command reads the response before it: a fault and an effect overwrite it, and the checks do not look at it. -/
theorem exec_ignores_response (i : Instr) (s : State) (r : Response) (b : Bool) :
    exec i { s with rsp := r, rspValid := b } = exec i s := by
  rcases exec_cases i s with ⟨hwf, e⟩ | ⟨hwf, ⟨n, hneed, hdead⟩, e⟩ | ⟨hwf, hmet, e⟩ <;> rw [e]
  · exact exec_illegal hwf
  · exact exec_notLive hwf hneed hdead
  · rw [← effect_ignores_response i s r b]
    exact exec_effect hwf hmet

/-- Settles O49: the data, presence and code of a response, and its independence of the one before. -/
theorem responseDataIsZeroOrTheDigest : Obligations.ResponseDataIsZeroOrTheDigest := by
  refine ⟨fun i s t h => ⟨fun hno => ?_, fun hyes => ?_, exec_rspValid h, statusCode_ne_three _⟩,
    ⟨rfl, rfl, rfl⟩, exec_ignores_response⟩
  · rw [exec_data h, if_neg fun ⟨hfin, hok⟩ => hno.elim (· hfin) (· hok)]
  · rw [exec_data h, if_pos hyes]

/-! ### The constants (R30, R34) -/

theorem raise_keeps_cfg {st : Status} {s t : State} (h : raise st s = .next t) : t.cfg = s.cfg := by
  rw [raise_next.1 h, respond_cfg]

theorem acceptWrite_keeps_cfg {sd : Slot} {len : Word} {s t : State} (h : acceptWrite sd len s = .next t) :
    t.cfg = s.cfg := by
  rcases acceptWrite_cases sd len s with ⟨-, e⟩ | ⟨-, -, e⟩ | ⟨-, e⟩ <;> rw [e] at h
  · exact raise_keeps_cfg h
  · exact raise_keeps_cfg h
  · cases h; rfl

theorem transact_keeps_cfg {c : Command} {s t : State} (h : transact c s = .next t) : t.cfg = s.cfg := by
  rcases transact_cases c s with ⟨-, e⟩ | ⟨i, -, e⟩ <;> rw [e] at h
  · exact (raise_keeps_cfg h).trans (openCommand_cfg c s)
  · exact (exec_frame h).cfg.trans (openCommand_cfg c s)

theorem startCommand_keeps_cfg {c : Command} {s t : State} (h : startCommand c s = .next t) : t.cfg = s.cfg := by
  rcases startCommand_cases c s with ⟨-, e⟩ | ⟨sd, len, -, e⟩ | ⟨i, -, -, e⟩ <;> rw [e] at h
  · exact (raise_keeps_cfg h).trans (openCommand_cfg c s)
  · exact (acceptWrite_keeps_cfg h).trans (openCommand_cfg c s)
  · exact (exec_frame h).cfg.trans (openCommand_cfg c s)

theorem idleStep_keeps_cfg {s t : State} (h : idleStep s = .next t) : t.cfg = s.cfg := by
  unfold idleStep at h
  split at h
  · cases h; rfl
  · cases h; rfl
  · cases h; rfl
  · simpa using transact_keeps_cfg h
  · simpa using startCommand_keeps_cfg h

theorem busyStep_keeps_cfg {s t : State} (h : busyStep s = .next t) : t.cfg = s.cfg := by
  unfold busyStep at h
  split at h
  · exact (microStep_frame h).cfg
  · exact (microStep_frame h).cfg
  · cases h; rfl
  · exact (microStep_frame h).cfg
  · exact (microStep_frame h).cfg

/-- Settles O60: no move of the host on an idle block and no micro-step or reset of a busy one writes the parameters. -/
theorem constantsNeverChange : Obligations.ConstantsNeverChange := by
  intro s t h
  by_cases hp : s.ph = .idle
  · exact idleStep_keeps_cfg ((step_idle hp).symm.trans h)
  · exact busyStep_keeps_cfg ((step_busy hp).symm.trans h)

/-! ### The state after power-on (R34, R210) -/

@[simp] theorem isLive_powerOn (j : Slot) (p : Params) (k : Nat) (ins : List HostInput) :
    isLive j (State.powerOn p k ins) = false := by
  simp [isLive, State.powerOn]

theorem nothingLive_reset : NothingLive State.reset := fun j => isLive_powerOn j _ _ _

/-- The default parameters meet R9, R10 and R11. -/
theorem default_legal : Params.default.Legal := by decide

/-- Settles O56: the flags are replicated, the rest is as the power-on state sets it. -/
theorem powerOnState : Obligations.PowerOnState := ⟨nothingLive_reset, rfl, rfl, rfl⟩

/-- Settles O57: an idle block with legal parameters, no live slot, an empty window and no host moves. -/
theorem resetMeetsTheInvariant : Obligations.ResetMeetsTheInvariant :=
  inv_of_idle rfl default_legal (fun j _ => nothingLive_reset j) reset_window_wf (List.forall_mem_nil _)

end Sys2Proof.Machine

/-! ## The input window: what a read returns and which bytes each operation sees (20_memory.md R42 to R48) -/

namespace Sys2Proof.Machine

/-! ### Window reads, byte by byte (R44, R45) -/

/-- One more byte is added above the `n` bytes already read: the two parts of the `or` in `memRead` are disjoint (R44). -/
theorem memRead_toNat_succ (m : Memory) (off : Word) {n : Nat} (hn : n < 8)
    (hlow : (memRead m off n).toNat < 2 ^ (8 * n)) :
    (memRead m off (n + 1)).toNat = (memRead m off n).toNat + (byteAt m (off.toNat + n)).toNat * 2 ^ (8 * n) := by
  have hbyte : (byteAt m (off.toNat + n)).toNat < 2 ^ 8 := (byteAt m (off.toNat + n)).isLt
  have hfit : (byteAt m (off.toNat + n)).toNat <<< (8 * n) < 2 ^ 64 :=
    calc (byteAt m (off.toNat + n)).toNat <<< (8 * n)
      _ = (byteAt m (off.toNat + n)).toNat * 2 ^ (8 * n) := Nat.shiftLeft_eq _ _
      _ < 2 ^ 8 * 2 ^ (8 * n) := Nat.mul_lt_mul_of_pos_right hbyte (Nat.two_pow_pos _)
      _ = 2 ^ (8 + 8 * n) := (Nat.pow_add ..).symm
      _ ≤ 2 ^ 64 := Nat.pow_le_pow_right (by decide) (by omega)
  have hzext : (zext64 (byteAt m (off.toNat + n))).toNat = (byteAt m (off.toNat + n)).toNat :=
    BitVec.toNat_setWidth_of_le (by decide)
  rw [memRead, BitVec.toNat_or, BitVec.toNat_shiftLeft, hzext, Nat.mod_eq_of_lt hfit, Nat.or_comm,
    ← Nat.shiftLeft_add_eq_or_of_lt hlow, Nat.shiftLeft_eq, Nat.add_comm]

/-- A read of `n` bytes is a number of `n` base-256 digits. -/
theorem memRead_toNat_lt (m : Memory) (off : Word) {n : Nat} (hn : n ≤ 8) :
    (memRead m off n).toNat < 2 ^ (8 * n) := by
  induction n with
  | zero => exact Nat.one_pos
  | succ n ih =>
    have hlow := ih (by omega)
    have hbyte : (byteAt m (off.toNat + n)).toNat < 2 ^ 8 := (byteAt m (off.toNat + n)).isLt
    rw [memRead_toNat_succ m off hn hlow, Nat.mul_succ, Nat.pow_add]
    nlinarith

/-- `MemRead` is little-endian at every width up to 8 bytes (R44). -/
theorem memRead_toNat (m : Memory) (off : Word) {n : Nat} (hn : n ≤ 8) :
    (memRead m off n).toNat = ∑ i ∈ Finset.range n, (byteAt m (off.toNat + i)).toNat * 2 ^ (8 * i) := by
  induction n with
  | zero => rfl
  | succ n ih =>
    rw [memRead_toNat_succ m off hn (memRead_toNat_lt m off (by omega)), ih (by omega), Finset.sum_range_succ]

/-- The bits that `n` bytes fill are the same in every wider read at the same offset (R45). -/
theorem memRead_extractLsb'_wider (m : Memory) (off : Word) {w n : Nat} (hw : w ≤ 8 * n) (k : Nat) :
    (memRead m off (n + k)).extractLsb' 0 w = (memRead m off n).extractLsb' 0 w := by
  induction k with
  | zero => rfl
  | succ k ih =>
    rw [← ih]
    ext i hi
    have hbelow : i < 8 * (n + k) := by omega
    simp [← Nat.add_assoc, memRead, hbelow]

/-- Settles O15: the sum byte by byte, the narrower read in the wider one, and the example evaluated. -/
theorem windowReadIsTheLittleEndianSum : Obligations.WindowReadIsTheLittleEndianSum := by
  refine ⟨fun m off n hn => memRead_toNat m off (by omega), fun m off => ⟨?_, ?_, ?_⟩, by decide⟩
  · exact memRead_extractLsb'_wider m off (n := 4) (by decide) 4
  · exact memRead_extractLsb'_wider m off (n := 2) (by decide) 2
  · exact memRead_extractLsb'_wider m off (n := 1) (by decide) 1

/-! ### The reads that each phase issues lie inside the window (R48) -/

theorem windowReads_b1 {s : State} (h : s.ph = .b1) : windowReads s = [⟨0, 0⟩] := by simp [windowReads, h]

theorem windowReads_b2 {s : State} (h : s.ph = .b2) : windowReads s = [⟨0, 1⟩, ⟨s.len - 2, 1⟩] := by
  simp [windowReads, h]

theorem windowReads_b4 {s : State} (h : s.ph = .b4) : windowReads s = [⟨0, 2⟩, ⟨s.len - 4, 2⟩] := by
  simp [windowReads, h]

theorem windowReads_loop {s : State} (h : s.ph = .loop) : windowReads s = [⟨s.pos, 3⟩] := by simp [windowReads, h]

theorem windowReads_front {s : State} (h : s.ph = .front) : windowReads s = [⟨s.pos, 3⟩] := by simp [windowReads, h]

theorem windowReads_tail {s : State} (h : s.ph = .tail) : windowReads s = [⟨s.len - 8, 3⟩] := by simp [windowReads, h]

theorem windowReads_none {s : State}
    (h : s.ph = .idle ∨ s.ph = .lenadd ∨ s.ph = .dispatch ∨ s.ph = .seed ∨ s.ph = .done) : windowReads s = [] := by
  rcases h with h | h | h | h | h <;> simp [windowReads, h]

theorem phaseBounds_b1 {s : State} (h : s.ph = .b1) : PhaseBounds s ↔ s.len = 1 := by simp [PhaseBounds, h]

theorem phaseBounds_b2 {s : State} (h : s.ph = .b2) : PhaseBounds s ↔ 2 ≤ s.len ∧ s.len ≤ 3 := by simp [PhaseBounds, h]

theorem phaseBounds_b4 {s : State} (h : s.ph = .b4) : PhaseBounds s ↔ 4 ≤ s.len ∧ s.len ≤ 8 := by simp [PhaseBounds, h]

/-- In the bulk path `rem` counts the bytes from `pos` on (R25). -/
theorem bulkPosition_rem {s : State} (hb : BulkPosition s) : s.rem = s.len - s.pos := by
  obtain ⟨-, -, hsum⟩ := hb
  bv_omega

/-- With at least 9 bytes left, 8 bytes from `pos` on are inside the window (R48). -/
theorem bulkPosition_read {s : State} (hb : BulkPosition s) (hr : 9 ≤ s.rem) : s.pos.toNat + 8 ≤ s.len.toNat := by
  obtain ⟨-, -, hsum⟩ := hb
  bv_omega

/-- The read that ends with the slice: where `len - k` does not wrap, it reaches `len` and no further. -/
theorem last_bytes_end {len k : Word} (h : k ≤ len) : (len - k).toNat + k.toNat = len.toNat := by bv_omega

/-- R48: within the bounds of its phase a micro-step reads inside the window only. -/
theorem windowReads_within {s : State} (hb : PhaseBounds s) : ∀ r ∈ windowReads s, r.within s.len = true := by
  simp only [within_iff]
  cases hp : s.ph
  case idle | lenadd | dispatch | seed | done => simp [windowReads, hp]
  case b1 =>
    have hlen := (phaseBounds_b1 hp).1 hb
    simp [windowReads_b1 hp, hlen]
  case b2 =>
    obtain ⟨hlen, -⟩ := (phaseBounds_b2 hp).1 hb
    simpa [windowReads_b2 hp] using ⟨hlen, (last_bytes_end hlen).le⟩
  case b4 =>
    obtain ⟨hlen, -⟩ := (phaseBounds_b4 hp).1 hb
    simpa [windowReads_b4 hp] using ⟨hlen, (last_bytes_end hlen).le⟩
  case loop =>
    obtain ⟨hbulk, hrem⟩ := (phaseBounds_loop hp).1 hb
    simpa [windowReads_loop hp] using bulkPosition_read hbulk (by bv_omega)
  case front =>
    obtain ⟨hbulk, hrem, -⟩ := (phaseBounds_front hp).1 hb
    simpa [windowReads_front hp] using bulkPosition_read hbulk hrem
  case tail =>
    obtain ⟨⟨hlen, -, -⟩, -, -⟩ := (phaseBounds_tail hp).1 hb
    simpa [windowReads_tail hp] using (last_bytes_end (len := s.len) (k := 8) (by bv_omega)).le

/-- Settles O16: the reads are those of the phase, and the bounds of the phase keep them inside the window. -/
theorem windowReadsAreAlwaysInRange : Obligations.WindowReadsAreAlwaysInRange := by
  intro s hi
  have hb := hi.bounds
  refine ⟨fun r hr => (within_iff _ _).1 (windowReads_within hb r hr), fun hp => ⟨windowReads_b1 hp, ?_⟩,
    fun hp => ⟨windowReads_b2 hp, ?_⟩, fun hp => ⟨windowReads_b4 hp, ?_⟩, fun hp => ⟨windowReads_loop hp, ?_⟩,
    fun hp => ⟨windowReads_front hp, ?_⟩, fun hp => ⟨windowReads_tail hp, ?_⟩, windowReads_none⟩
  · exact (phaseBounds_b1 hp).1 hb
  · exact ((phaseBounds_b2 hp).1 hb).1
  · exact ((phaseBounds_b4 hp).1 hb).1
  · exact ((phaseBounds_loop hp).1 hb).imp_left bulkPosition_rem
  · obtain ⟨hbulk, hrem, -⟩ := (phaseBounds_front hp).1 hb
    exact ⟨bulkPosition_rem hbulk, hrem⟩
  · obtain ⟨⟨hlen, -, -⟩, -, -⟩ := (phaseBounds_tail hp).1 hb
    exact hlen

/-! ### Nothing stops a step (R48, R195) -/

/-- A command answers a next state, whatever its checks say (R193, R195). -/
theorem exec_answers (i : Instr) (s : State) : ∃ t, exec i s = .next t := by
  rcases exec_cases i s with ⟨-, e⟩ | ⟨-, -, e⟩ | ⟨-, -, e⟩
  · exact ⟨_, e⟩
  · exact ⟨_, e⟩
  · exact ⟨_, e⟩

theorem acceptWrite_answers (sd : Slot) (len : Word) (s : State) : ∃ t, acceptWrite sd len s = .next t := by
  rcases acceptWrite_cases sd len s with ⟨-, e⟩ | ⟨-, -, e⟩ | ⟨-, e⟩
  · exact ⟨_, e⟩
  · exact ⟨_, e⟩
  · exact ⟨_, e⟩

theorem transact_answers (c : Command) (s : State) : ∃ t, transact c s = .next t := by
  rcases transact_cases c s with ⟨-, e⟩ | ⟨i, -, e⟩
  · exact ⟨_, e⟩
  · exact e ▸ exec_answers i _

theorem startCommand_answers (c : Command) (s : State) : ∃ t, startCommand c s = .next t := by
  rcases startCommand_cases c s with ⟨-, e⟩ | ⟨sd, len, -, e⟩ | ⟨i, -, -, e⟩
  · exact ⟨_, e⟩
  · exact e ▸ acceptWrite_answers sd len _
  · exact e ▸ exec_answers i _

/-- A micro-step whose reads are all inside the window does not fault. -/
theorem microStep_answers {s : State} (hr : ∀ r ∈ windowReads s, r.within s.len = true) : ∃ t, microStep s = .next t := by
  cases hp : s.ph <;> simp only [microStep, hp]
  case idle | lenadd | dispatch | seed | done => exact ⟨_, rfl⟩
  case b1 | loop | front | tail =>
    simp only [windowReads, hp, List.forall_mem_singleton] at hr
    exact ⟨_, withRead_within hr _⟩
  case b2 | b4 =>
    simp only [windowReads, hp, List.forall_mem_cons] at hr
    obtain ⟨hfirst, hlast, -⟩ := hr
    exact ⟨_, (withRead_within hfirst _).trans (withRead_within hlast _)⟩

theorem idleStep_answers (s : State) : ∃ t, idleStep s = .next t := by
  unfold idleStep
  split
  · exact ⟨_, rfl⟩
  · exact ⟨_, rfl⟩
  · exact ⟨_, rfl⟩
  · exact transact_answers _ _
  · exact startCommand_answers _ _

/-- The host's moves do not appear in the bounds, so that a busy block makes its micro-step whatever is presented. -/
theorem busyStep_answers {s : State} (hb : PhaseBounds s) : ∃ t, busyStep s = .next t := by
  have hr := windowReads_within hb
  unfold busyStep
  split
  · exact microStep_answers hr
  · exact microStep_answers hr
  · exact ⟨_, rfl⟩
  · exact microStep_answers hr
  · exact microStep_answers hr

/-- Settles O59: a command always answers, and a micro-step within the bounds of its phase reads inside the window. -/
theorem noStepStopsUnderTheInvariant : Obligations.NoStepStopsUnderTheInvariant := by
  intro s hi
  by_cases hp : s.ph = .idle
  · exact step_idle hp ▸ idleStep_answers s
  · exact step_busy hp ▸ busyStep_answers hi.bounds

/-! ### A micro-step sees the bytes it reads (R58, R71) -/

/-- A read depends on the bytes it covers alone. -/
theorem memRead_congr {m m' : Memory} {off : Word} {n : Nat}
    (h : ∀ i, i < n → byteAt m (off.toNat + i) = byteAt m' (off.toNat + i)) : memRead m off n = memRead m' off n := by
  induction n with
  | zero => rfl
  | succ n ih => rw [memRead, memRead, ih fun i hi => h i (by omega), h n (by omega)]

/-- `m` holds the bytes of the state's window that the read `r` covers. -/
def ReadsAlike (m : Memory) (s : State) (r : WindowRead) : Prop :=
  ∀ i, i < r.bytes → byteAt m (r.off.toNat + i) = byteAt s.win (r.off.toNat + i)

/-- A read is answered from another window as from the state's own where it covers the same bytes: its range check looks at
`len` alone. -/
theorem withRead_withWindow {m : Memory} {s t : State} {r : WindowRead} {body body' : Word → Answer}
    (hr : ReadsAlike m s r) (hbody : ∀ w, body w = .next t → body' w = .next (withWindow m t))
    (h : withRead s r body = .next t) : withRead (withWindow m s) r body' = .next (withWindow m t) := by
  obtain ⟨hwithin, hnext⟩ := withRead_next h
  have hread : readWindow (withWindow m s) r = readWindow s r := memRead_congr hr
  rw [withRead_within (s := withWindow m s) hwithin, hread]
  exact hbody _ hnext

/-- Settles O17: the window enters a micro-step through `withRead` alone, at the reads of its phase. -/
theorem microStepSeesOnlyTheReadsItIssues : Obligations.MicroStepSeesOnlyTheReadsItIssues := by
  intro s t m hm h
  have hreads : ∀ r ∈ windowReads s, ReadsAlike m s r := hm
  cases hp : s.ph <;> simp only [microStep, withWindow_ph, hp] at h ⊢
  case idle | lenadd | dispatch | seed | done => cases h; rfl
  case b1 | loop | front | tail =>
    simp only [windowReads, hp, List.forall_mem_singleton] at hreads
    exact withRead_withWindow hreads (fun w hw => by cases hw; rfl) h
  case b2 | b4 =>
    simp only [windowReads, hp, List.forall_mem_cons] at hreads
    obtain ⟨hfirst, hlast, -⟩ := hreads
    exact withRead_withWindow hfirst (fun _ => withRead_withWindow hlast fun w hw => by cases hw; rfl) h

/-! ### WRITE sees the bytes of its slice (R42, R48, R140 to R147) -/

/-- A read inside the slice is the same in two windows that hold the same slice. -/
theorem memRead_sameBytes {len off : Word} {m m' : Memory} {n : Nat} (h : SameBytes len m m')
    (hn : off.toNat + n ≤ len.toNat) : memRead m off n = memRead m' off n :=
  memRead_congr fun i hi => h (off.toNat + i) (by omega)

/-- So are the first and the last `k` bytes of a slice that has as many. -/
theorem ends_sameBytes {len k : Word} {m m' : Memory} (h : SameBytes len m m') (hk : k ≤ len) :
    memRead m 0 k.toNat = memRead m' 0 k.toNat ∧ memRead m (len - k) k.toNat = memRead m' (len - k) k.toNat :=
  ⟨memRead_sameBytes h (by simpa [word_le_iff] using hk), memRead_sameBytes h (last_bytes_end hk).le⟩

/-- The bulk path of WRITE between two iterations: `rem` bytes are left from `pos` on, at least 9 (R25, R147). -/
def SliceRegs.Bulk (len : Word) (r : SliceRegs) : Prop :=
  r.pos.toNat + r.rem.toNat = len.toNat ∧ 9 ≤ r.rem.toNat

theorem loopBody_keeps_bulk {p : Params} {m : Memory} {len : Word} {r : SliceRegs} (hb : r.Bulk len) (hr : 16 < r.rem) :
    (loopBody p m r).Bulk len := by
  obtain ⟨hsum, -⟩ := hb
  constructor
  · show (r.pos + 8).toNat + (r.rem - 8).toNat = len.toNat
    bv_omega
  · show 9 ≤ (r.rem - 8).toNat
    bv_omega

theorem bulkLoop_keeps_bulk {p : Params} {m : Memory} {len : Word} (fuel : Nat) {r : SliceRegs} (hb : r.Bulk len) :
    (bulkLoop p m fuel r).Bulk len := by
  induction fuel generalizing r with
  | zero => exact hb
  | succ fuel ih =>
    rw [bulkLoop]
    split
    next hr => exact ih (loopBody_keeps_bulk hb hr)
    next => exact hb

section
variable {len : Word} {m m' : Memory} (h : SameBytes len m m') (p : Params)
include h

/-- The 8 bytes at `pos` are bytes of the slice (R48). -/
theorem ordAt_sameBytes {r : SliceRegs} (hb : r.Bulk len) : ordAt p m r = ordAt p m' r := by
  obtain ⟨hsum, hrem⟩ := hb
  rw [ordAt, ordAt, memRead_sameBytes h (off := r.pos) (by omega)]

theorem bulkLoop_sameBytes (fuel : Nat) {r : SliceRegs} (hb : r.Bulk len) :
    bulkLoop p m fuel r = bulkLoop p m' fuel r := by
  induction fuel generalizing r with
  | zero => rfl
  | succ fuel ih =>
    have hbody : loopBody p m r = loopBody p m' r := by rw [loopBody, loopBody, ordAt_sameBytes h p hb]
    rw [bulkLoop, bulkLoop, ← hbody]
    split
    next hr => exact ih (loopBody_keeps_bulk hb hr)
    next => rfl

/-- The loop, the front read and the tail read of the bulk path stay inside the slice (R146, R147). -/
theorem bulk_sameBytes (hlen : 9 ≤ len) (a : Word) : bulk p m len a = bulk p m' len a := by
  have hstart : SliceRegs.Bulk len ⟨a, a, 0, len⟩ := ⟨by simp, hlen⟩
  have hloop := bulkLoop_sameBytes h p (len.toNat / 8) hstart
  have hfront := ordAt_sameBytes h p (bulkLoop_keeps_bulk (p := p) (m := m') (len.toNat / 8) hstart)
  have htail : memRead m (len - 8) 8 = memRead m' (len - 8) 8 := (ends_sameBytes h (k := 8) (by bv_omega)).2
  rw [bulk, bulk, hloop, hfront, absorbTail, absorbTail, htail]

/-- Every band reads inside the slice (R141 to R146). -/
theorem absorbSlice_sameBytes (r : SliceRegs) : absorbSlice p m len r = absorbSlice p m' len r := by
  unfold absorbSlice
  split_ifs with h0 h1 h3 h8
  · rfl
  · have hone : memRead m 0 1 = memRead m' 0 1 := memRead_sameBytes h (by simp [h1])
    rw [band1Word, band1Word, hone]
  · obtain ⟨hfirst, hlast⟩ : memRead m 0 2 = memRead m' 0 2 ∧ memRead m (len - 2) 2 = memRead m' (len - 2) 2 :=
      ends_sameBytes h (k := 2) (by bv_omega)
    rw [band2Word, band2Word, hfirst, hlast]
  · obtain ⟨hfirst, hlast⟩ : memRead m 0 4 = memRead m' 0 4 ∧ memRead m (len - 4) 4 = memRead m' (len - 4) 4 :=
      ends_sameBytes h (k := 4) (by bv_omega)
    rw [band4Word, band4Word, hfirst, hlast]
  · exact bulk_sameBytes h p (by bv_omega) r.a

end

/-- The effect of WRITE with another window that holds the same slice. -/
theorem effect_write_withWindow {s : State} {m : Memory} {len : Word} (h : SameBytes len m s.win) (sd : Slot) :
    effect (.write sd len) (withWindow m s) = withWindow m (effect (.write sd len) s) := by
  simp only [effect, withWindow_cfg, withWindow_win, absorbSlice_sameBytes h]
  rfl

/-- Settles O18: the checks do not look at the window, and the effect reads inside the slice. -/
theorem writeSeesOnlyTheBytesOfItsSlice : Obligations.WriteSeesOnlyTheBytesOfItsSlice := by
  intro s t sd len m hm h
  rcases exec_next_cases h with ⟨hwf, rfl⟩ | ⟨hwf, ⟨n, hneed, hdead⟩, rfl⟩ | ⟨hwf, hmet, rfl⟩
  · exact exec_illegal (s := withWindow m s) hwf
  · exact exec_notLive (s := withWindow m s) hwf hneed hdead
  · rw [← effect_write_withWindow hm]
    exact exec_effect (s := withWindow m s) hwf hmet

end Sys2Proof.Machine

/-! ## Encoding: command words, operands and the commands they carry (30_encoding.md R61 to R81) -/

namespace Sys2Proof

/-! ### The fields of a command word (R61) -/

/-- A command word is its four fields. -/
theorem append_fields (cw : BitVec 16) :
    opField cw ++ BitVec.ofFin (w := 4) (sdField cw) ++ BitVec.ofFin (w := 4) (ssField cw) ++ rsvField cw = cw := by
  simp only [opField, sdField, ssField, rsvField, BitVec.ofFin_toFin]
  rw [BitVec.extractLsb'_append_extractLsb'_eq_extractLsb' (by decide),
    BitVec.extractLsb'_append_extractLsb'_eq_extractLsb' (by decide),
    BitVec.extractLsb'_append_extractLsb'_eq_extractLsb' (by decide)]
  exact BitVec.extractLsb'_eq_self

/-- Bit vectors put together from parts of the same widths are equal when the parts are. -/
theorem append_eq_append_iff {v w : Nat} {x x' : BitVec v} {y y' : BitVec w} :
    x ++ y = x' ++ y' ↔ x = x' ∧ y = y' := by
  constructor
  · intro h
    constructor
    · simpa only [BitVec.extractLsb'_append_eq_left] using congrArg (BitVec.extractLsb' w v) h
    · simpa only [BitVec.extractLsb'_append_eq_right] using congrArg (BitVec.extractLsb' 0 w) h
  · rintro ⟨rfl, rfl⟩
    rfl

/-- A word under a mask, field by field. -/
theorem and_append_eq_append_iff {a b c d ma mb mc md pa pb pc pd : BitVec 4} :
    (a ++ b ++ c ++ d) &&& (ma ++ mb ++ mc ++ md) = pa ++ pb ++ pc ++ pd ↔
      ((a &&& ma = pa ∧ b &&& mb = pb) ∧ c &&& mc = pc) ∧ d &&& md = pd := by
  simp only [BitVec.and_append, append_eq_append_iff]

theorem ofCode_eq_some_iff {code : BitVec 4} {op : Opcode} : Opcode.ofCode code = some op ↔ code = op.code := by
  constructor
  · cases op <;> revert code <;> decide
  · rintro rfl
    exact ofCode_code op

theorem slot_inRange_iff {nsess : Nat} {s : Slot} : Slot.inRange nsess s = true ↔ s.val < nsess := decide_eq_true_iff

/-! ### Which row a command word selects (R64, R66, R67) -/

/-- The command word has the operation code of `op`, no reserved bit set, and a source slot only for COPY (R64, R67). -/
structure CodesFor (op : Opcode) (cw : BitVec 16) : Prop where
  code : opField cw = op.code
  rsv : rsvField cw = 0
  source : op ≠ .copy → ssField cw = 0

/-- Pattern and mask of a row, field by field. -/
theorem row_fields : ∀ r ∈ opcodeTable, r.pattern = r.op.code ++ 0#4 ++ 0#4 ++ 0#4 ∧
    r.mask = 0xF#4 ++ 0#4 ++ (if r.op = .copy then 0#4 else 0xF#4) ++ 0xF#4 := by decide

theorem row_of_op_unique : ∀ r ∈ opcodeTable, ∀ r' ∈ opcodeTable, r.op = r'.op → r = r' := by decide

theorem exists_row_of_op (op : Opcode) : ∃ r ∈ opcodeTable, r.op = op := by cases op <;> decide

/-- What it takes for a row of R64 to select a command word: the mask keeps `op`, `rsv` and, outside COPY, `ss`. -/
theorem row_selects_iff {r : OpRow} (hr : r ∈ opcodeTable) (cw : BitVec 16) :
    r.selects cw = true ↔ CodesFor r.op cw := by
  obtain ⟨hpattern, hmask⟩ := row_fields r hr
  have hkeep (x : BitVec 4) : x &&& 0xF#4 = x := BitVec.and_allOnes
  have hss : BitVec.ofFin (w := 4) (ssField cw) = 0#4 ↔ ssField cw = 0 :=
    ⟨congrArg BitVec.toFin, congrArg BitVec.ofFin⟩
  have hfields : cw &&& r.mask = r.pattern ↔
      opField cw = r.op.code ∧ (r.op ≠ .copy → ssField cw = 0) ∧ rsvField cw = 0 := by
    conv_lhs => rw [← append_fields cw, hpattern, hmask]
    refine and_append_eq_append_iff.trans ?_
    by_cases hcopy : r.op = .copy <;> simp [hcopy, hkeep, hss, and_assoc]
  rw [OpRow.selects, decide_eq_true_iff, hfields]
  constructor
  · rintro ⟨hcode, hsource, hrsv⟩
    exact ⟨hcode, hrsv, hsource⟩
  · rintro ⟨hcode, hrsv, hsource⟩
    exact ⟨hcode, hsource, hrsv⟩

/-! ### Operands (R62, R63) -/

/-- The two halves of an operand make the operand. -/
theorem opndHigh_append_opndLow (opnd : BitVec 128) : opndHigh opnd ++ opndLow opnd = opnd := by
  rw [opndHigh, opndLow, BitVec.extractLsb'_append_extractLsb'_eq_extractLsb' (by decide)]
  exact BitVec.extractLsb'_eq_self

/-- The low bits of an operand, widened again, are the operand with its other bits set to 0. -/
theorem setWidth_extract {w : Nat} (opnd : BitVec 128) :
    (opnd.extractLsb' 0 w).setWidth 128 = BitVec.ofNat 128 (opnd.toNat % 2 ^ w) := by
  apply BitVec.eq_of_toNat_eq
  simp

/-- A format that reads the whole operand. -/
theorem readPart_of_readBits_eq {f : Format} (hf : f.readBits = 128) (opnd : BitVec 128) : f.readPart opnd = opnd := by
  rw [Format.readPart, hf, Nat.mod_eq_of_lt opnd.isLt, BitVec.ofNat_toNat, BitVec.setWidth_eq]

/-! ### The command that operation, slots and operand make -/

@[simp] theorem assemble_opcode (op : Opcode) (sd ss : Slot) (opnd : BitVec 128) :
    (assemble op sd ss opnd).opcode = op := by cases op <;> rfl

@[simp] theorem assemble_dest (op : Opcode) (sd ss : Slot) (opnd : BitVec 128) :
    (assemble op sd ss opnd).dest = sd := by cases op <;> rfl

/-- A command assembled with source slot 0 outside COPY has the source field it was given. -/
theorem assemble_sourceField {op : Opcode} {ss : Slot} (h : op ≠ .copy → ss = 0) (sd : Slot) (opnd : BitVec 128) :
    (assemble op sd ss opnd).sourceField = ss := by
  cases op with
  | copy => rfl
  | init | wu8 | wu16 | wu32 | wu64 | wu128 | write | finish => exact (h (by decide)).symm

/-- The operand of an assembled command is what its format reads of the operand given (R62, R63). -/
theorem encodeOpnd_assemble (op : Opcode) (sd ss : Slot) (opnd : BitVec 128) :
    encodeOpnd (assemble op sd ss opnd) = op.format.readPart opnd := by
  cases op with
  | init | wu128 => exact (opndHigh_append_opndLow opnd).trans (readPart_of_readBits_eq rfl opnd).symm
  | wu8 | wu16 | wu32 | wu64 | write => exact setWidth_extract opnd
  | finish | copy => simp [assemble, encodeOpnd, Opcode.format, Format.readPart, Format.readBits, Nat.mod_one]

/-- A command is assembled from its operation, its slots and its encoded operand. -/
theorem assemble_encodeOpnd (i : Instr) : assemble i.opcode i.dest i.sourceField (encodeOpnd i) = i := by
  cases i with
  | init sd key0 key1 => exact congrArg₂ (Instr.init sd) (opndLow_append key1 key0) (opndHigh_append key1 key0)
  | wu128 sd lo hi => exact congrArg₂ (Instr.wu128 sd) (opndLow_append hi lo) (opndHigh_append hi lo)
  | wu8 sd v => exact congrArg (Instr.wu8 sd) (extract_setWidth (by decide) v)
  | wu16 sd v => exact congrArg (Instr.wu16 sd) (extract_setWidth (by decide) v)
  | wu32 sd v => exact congrArg (Instr.wu32 sd) (extract_setWidth (by decide) v)
  | wu64 sd v => exact congrArg (Instr.wu64 sd) (opndLow_setWidth v)
  | write sd len => exact congrArg (Instr.write sd) (opndLow_setWidth len)
  | finish sd | copy sd ss => rfl

/-- A command is the one its operation, its slots and its encoded operand determine. -/
theorem instr_eq_of_fields {i j : Instr} (hop : i.opcode = j.opcode) (hdest : i.dest = j.dest)
    (hsource : i.sourceField = j.sourceField) (hopnd : encodeOpnd i = encodeOpnd j) : i = j := by
  rw [← assemble_encodeOpnd i, hop, hdest, hsource, hopnd, assemble_encodeOpnd]

/-- A command depends on the operand through the bits its format reads alone (R63). -/
theorem assemble_congr_readPart {op : Opcode} {opnd opnd' : BitVec 128}
    (h : op.format.readPart opnd = op.format.readPart opnd') (sd ss : Slot) :
    assemble op sd ss opnd = assemble op sd ss opnd' := by
  refine instr_eq_of_fields (by simp) (by simp) ?_ ?_
  · cases op <;> rfl
  · rw [encodeOpnd_assemble, encodeOpnd_assemble, h]

/-! ### Which words decode, and to what (R65, R68) -/

/-- The slots that the command word names are slots of the block (R68). -/
structure SlotsExist (nsess : Nat) (op : Opcode) (cw : BitVec 16) : Prop where
  dest : (sdField cw).val < nsess
  source : op = .copy → (ssField cw).val < nsess

/-- None of the causes (b) to (e) of R191 is there. -/
theorem illegality_eq_none_iff {nsess : Nat} {op : Opcode} {cw : BitVec 16} :
    illegality nsess op cw = none ↔
      rsvField cw = 0 ∧ (op ≠ .copy → ssField cw = 0) ∧ SlotsExist nsess op cw := by
  constructor
  · intro h
    unfold illegality at h
    split_ifs at h with hrsv hsource hdest hrange
    simp only [not_and, ne_eq, not_not, Bool.not_eq_false, slot_inRange_iff] at hrsv hsource hdest hrange
    exact ⟨hrsv, hsource, hdest, hrange⟩
  · rintro ⟨hrsv, hsource, hdest, hrange⟩
    simp only [← slot_inRange_iff] at hdest hrange
    rw [illegality, if_neg (not_not.2 hrsv), if_neg fun ⟨hop, hss⟩ => hss (hsource hop), if_neg (by simp [hdest]),
      if_neg fun ⟨hop, hlack⟩ => by simp [hrange hop] at hlack]

/-- Everything that decodes: words that code for an operation and name slots of the block. -/
theorem decode_eq_ok_iff {nsess : Nat} {w : Words} {i : Instr} :
    decode nsess w = .ok i ↔ ∃ op, CodesFor op w.cw ∧ SlotsExist nsess op w.cw ∧
      i = assemble op (sdField w.cw) (ssField w.cw) w.opnd := by
  unfold decode
  constructor
  · intro h
    split at h
    · cases h
    next op hcode =>
      split at h
      · cases h
      next hlegal =>
        obtain ⟨hrsv, hsource, hslots⟩ := illegality_eq_none_iff.1 hlegal
        cases h
        exact ⟨op, ⟨ofCode_eq_some_iff.1 hcode, hrsv, hsource⟩, hslots, rfl⟩
  · rintro ⟨op, ⟨hcode, hrsv, hsource⟩, hslots, rfl⟩
    simp only [ofCode_eq_some_iff.2 hcode, illegality_eq_none_iff.2 ⟨hrsv, hsource, hslots⟩]

theorem exists_decode_eq_ok_iff {nsess : Nat} {w : Words} :
    (∃ i, decode nsess w = .ok i) ↔ ∃ op, CodesFor op w.cw ∧ SlotsExist nsess op w.cw := by
  simp only [decode_eq_ok_iff]
  exact ⟨fun ⟨_, op, hcodes, hslots, _⟩ => ⟨op, hcodes, hslots⟩,
    fun ⟨op, hcodes, hslots⟩ => ⟨_, op, hcodes, hslots, rfl⟩⟩

/-- A command is well-formed when its destination exists, and its source for COPY (R68). -/
theorem wf_iff {nsess : Nat} {i : Instr} :
    i.wf nsess = true ↔ i.dest.val < nsess ∧ (i.opcode = .copy → i.sourceField.val < nsess) := by
  cases i with
  | copy sd ss => simp [Instr.wf, slot_inRange_iff, Instr.dest, Instr.opcode, Instr.sourceField]
  | init sd key0 key1 | wu8 sd v | wu16 sd v | wu32 sd v | wu64 sd v | wu128 sd lo hi | write sd len | finish sd =>
    simp [Instr.wf, slot_inRange_iff, Instr.dest, Instr.opcode]

theorem sourceField_eq_zero {i : Instr} (h : i.opcode ≠ .copy) : i.sourceField = 0 := by
  cases i with
  | copy sd ss => exact absurd rfl h
  | init sd key0 key1 | wu8 sd v | wu16 sd v | wu32 sd v | wu64 sd v | wu128 sd lo hi | write sd len | finish sd => rfl

/-- Settles O1: the fields of the command word and the operand are read back, and make the command again. -/
theorem decodeOfEncodeIsTheCommand : Obligations.DecodeOfEncodeIsTheCommand := by
  intro nsess i hwf
  obtain ⟨hdest, hsource⟩ := wf_iff.1 hwf
  obtain ⟨hop, hsd, hss, hrsv⟩ := fields_of_append i.opcode.code i.dest i.sourceField
  refine decode_eq_ok_iff.2 ⟨i.opcode, ⟨hop, hrsv, fun h => hss.trans (sourceField_eq_zero h)⟩, ⟨?_, ?_⟩, ?_⟩
  · exact hsd.symm ▸ hdest
  · exact hss.symm ▸ hsource
  · exact hsd.symm ▸ hss.symm ▸ (assemble_encodeOpnd i).symm

/-- Settles O2: the operation code and the fields of the word are those of the command, and so is the operand as its format
reads it. -/
theorem encodeOfDecodeKeepsReadBits : Obligations.EncodeOfDecodeKeepsReadBits := by
  intro nsess w i h
  obtain ⟨op, ⟨hcode, hrsv, hsource⟩, ⟨hdest, hrange⟩, rfl⟩ := decode_eq_ok_iff.1 h
  have hss := assemble_sourceField hsource (sdField w.cw) w.opnd
  constructor
  · simpa [wf_iff, hss] using ⟨hdest, hrange⟩
  · have hcw : encodeCW (assemble op (sdField w.cw) (ssField w.cw) w.opnd) = w.cw := by
      rw [encodeCW, assemble_opcode, assemble_dest, hss, ← hcode, ← hrsv, append_fields]
    rw [encode, hcw, encodeOpnd_assemble, assemble_opcode]

/-- Settles O6: legality does not look at the operand, and the command looks at the bits its format reads. -/
theorem unreadOperandBitsChangeNothing : Obligations.UnreadOperandBitsChangeNothing := by
  intro nsess cw opnd opnd' h
  cases hop : Opcode.ofCode (opField cw) with
  | none => simp only [decode, hop]
  | some op => simp only [decode, hop, assemble_congr_readPart (h op hop)]

/-- Settles O7: the words are evaluated. -/
theorem wordsOfTheSpecDecode : Obligations.WordsOfTheSpecDecode := by
  unfold Obligations.WordsOfTheSpecDecode
  decide

end Sys2Proof

namespace Sys2Proof.Machine

/-! ### The command channel: legal and illegal words (R60, R65 to R68) -/

/-- A command word that decodes is executed. -/
theorem transact_decoded {c : Command} {s : State} {i : Instr} (h : decode s.cfg.nsess c.words = .ok i) :
    transact c s = exec i (openCommand c s) := by simp only [transact, h]

/-- A command word that decodes to nothing raises IllegalCommand. -/
theorem transact_undecoded {c : Command} {s : State} (h : ∀ i, decode s.cfg.nsess c.words ≠ .ok i) :
    transact c s = raise .illegalCommand (openCommand c s) := by
  rcases transact_cases c s with ⟨-, e⟩ | ⟨i, hi, -⟩
  · exact e
  · exact absurd hi (h i)

/-- A command word raises IllegalCommand when every operation it codes for names a slot that the block lacks. -/
theorem transact_illegal {c : Command} {s : State}
    (h : ∀ op, CodesFor op c.words.cw → ¬ SlotsExist s.cfg.nsess op c.words.cw) :
    transact c s = raise .illegalCommand (openCommand c s) := by
  refine transact_undecoded fun i hi => ?_
  obtain ⟨op, hcodes, hslots⟩ := exists_decode_eq_ok_iff.1 ⟨i, hi⟩
  exact h op hcodes hslots

/-- A command word that codes for no operation selects no row and raises IllegalCommand. -/
theorem noRow_illegal {c : Command} {s : State} (h : ∀ op, ¬ CodesFor op c.words.cw) :
    (∀ r ∈ opcodeTable, r.selects c.words.cw = false) ∧ transact c s = raise .illegalCommand (openCommand c s) :=
  ⟨fun r hr => Bool.eq_false_iff.2 fun hsel => h r.op ((row_selects_iff hr _).1 hsel),
    transact_illegal fun op hcodes => absurd hcodes (h op)⟩

/-- Operation codes are 1 to 9 (R64, R66). -/
theorem code_bounds (op : Opcode) : op.code ≠ 0 ∧ op.code.toNat < 10 := by cases op <;> decide

theorem code_eq_nine_iff (op : Opcode) : op.code = 9 ↔ op = .copy := by cases op <;> decide

/-- Settles O3: a row selects exactly the words that code for its operation, and no operation has two rows. -/
theorem everyCommandWordIsLegalOrIllegal : Obligations.EveryCommandWordIsLegalOrIllegal := by
  refine ⟨fun nsess w => ⟨fun h => ?_, ?_⟩, fun nsess w i h => ?_, fun s c => transact_undecoded,
    fun nsess cw opnd opnd' h => ?_⟩
  · obtain ⟨op, hcodes, hdest, hsource⟩ := exists_decode_eq_ok_iff.1 h
    obtain ⟨r, hr, rfl⟩ := exists_row_of_op op
    refine ⟨r, hr, (row_selects_iff hr _).2 hcodes, fun r' hr' hsel => ?_, hdest, hsource⟩
    have hcode : r'.op.code = r.op.code := ((row_selects_iff hr' _).1 hsel).code.symm.trans hcodes.code
    have hop : some r'.op = some r.op := by rw [← ofCode_code, hcode, ofCode_code]
    exact row_of_op_unique r' hr' r hr (Option.some.inj hop)
  · rintro ⟨r, hr, hsel, -, hdest, hsource⟩
    exact exists_decode_eq_ok_iff.2 ⟨r.op, (row_selects_iff hr _).1 hsel, hdest, hsource⟩
  · obtain ⟨op, hcodes, -, rfl⟩ := decode_eq_ok_iff.1 h
    obtain ⟨r, hr, rfl⟩ := exists_row_of_op op
    exact ⟨r, hr, (row_selects_iff hr _).2 hcodes, (assemble_opcode ..).symm⟩
  · obtain ⟨op, hcodes, hslots⟩ := exists_decode_eq_ok_iff.1 h
    exact exists_decode_eq_ok_iff.2 ⟨op, hcodes, hslots⟩

/-- The reserved operation codes code for no operation (R66). -/
theorem not_codesFor_of_reservedOp {cw : BitVec 16} (h : opField cw = 0 ∨ 10 ≤ (opField cw).toNat) (op : Opcode) :
    ¬ CodesFor op cw := by
  rintro ⟨hcode, -, -⟩
  rw [hcode] at h
  obtain ⟨hzero, hten⟩ := code_bounds op
  exact h.elim hzero (by omega)

/-- Reserved bits, and source bits outside COPY, code for no operation (R67). -/
theorem not_codesFor_of_reservedBits {cw : BitVec 16}
    (h : rsvField cw ≠ 0 ∨ (ssField cw ≠ 0 ∧ opField cw ≠ 9)) (op : Opcode) : ¬ CodesFor op cw := by
  rintro ⟨hcode, hrsv, hsource⟩
  rcases h with h | ⟨hss, hnine⟩
  · exact h hrsv
  · rw [hcode, ne_eq, code_eq_nine_iff] at hnine
    exact hss (hsource hnine)

/-- Settles O4: reserved codes and bits select no row; a slot out of range stops a word that does select one. -/
theorem reservedEncodingsRaiseIllegalCommand : Obligations.ReservedEncodingsRaiseIllegalCommand := by
  refine ⟨fun s c h => noRow_illegal (not_codesFor_of_reservedOp h), fun s opnd m => ?_,
    fun s c h => noRow_illegal (not_codesFor_of_reservedBits h), fun s c h => ?_, fun sd => slot_inRange_iff.2 sd.isLt⟩
  · have hop : opField 0 = 0 := by decide
    exact (noRow_illegal (c := ⟨⟨0, opnd⟩, m⟩) (not_codesFor_of_reservedOp (.inl hop))).2
  · refine transact_illegal ?_
    rintro op ⟨hcode, -, -⟩ ⟨hdest, hsource⟩
    rcases h with h | ⟨hnine, h⟩
    · exact absurd hdest h.not_gt
    · rw [hcode, code_eq_nine_iff] at hnine
      exact absurd (hsource hnine) h.not_gt

/-! ### The assembler's forms (R80, R81) -/

/-- `base + (sd << 8)` puts the slot into the field `sd` of a word that is otherwise `op` alone. -/
theorem cwOf_append (op : BitVec 4) (sd : Slot) :
    cwOf (op ++ 0#12) sd = op ++ BitVec.ofFin (w := 4) sd ++ 0#4 ++ 0#4 := by
  revert op sd
  decide

/-- `+ (ss << 4)` puts the source slot of COPY into the field `ss`. -/
theorem cwOf_add_source (sd ss : Slot) : cwOf 0x9000 sd + (BitVec.ofNat 16 ss.val <<< 4) =
    0x9#4 ++ BitVec.ofFin (w := 4) sd ++ BitVec.ofFin (w := 4) ss ++ 0#4 := by
  revert sd ss
  decide

/-- The column CW of R80 is the encoding's command word. -/
theorem lineCW_eq_encodeCW (l : Line) : lineCW l = encodeCW (lineInstr l) := by
  cases l with
  | init sd key0 key1 => exact cwOf_append 1 sd
  | wu8 sd v => exact cwOf_append 2 sd
  | wu16 sd v => exact cwOf_append 3 sd
  | wu32 sd v => exact cwOf_append 4 sd
  | wu64 sd v | wusize sd v => exact cwOf_append 5 sd
  | wu128 sd v => exact cwOf_append 6 sd
  | write sd bytes => exact cwOf_append 7 sd
  | finish sd => exact cwOf_append 8 sd
  | copy sd ss | dup sd ss => exact cwOf_add_source sd ss

/-- The length of a slice, as an operand and as a word. -/
theorem ofNat_mod_eq_setWidth (n : Nat) : BitVec.ofNat 128 (n % 2 ^ 64) = (BitVec.ofNat 64 n).setWidth 128 := by
  apply BitVec.eq_of_toNat_eq
  rw [BitVec.toNat_ofNat, BitVec.toNat_setWidth, BitVec.toNat_ofNat]

/-- The column OPND of R80 is the encoding's operand. -/
theorem lineOpnd_eq_encodeOpnd (l : Line) : lineOpnd l = encodeOpnd (lineInstr l) := by
  cases l with
  | wu128 sd v => exact (opndHigh_append_opndLow v).symm
  | write sd bytes => exact ofNat_mod_eq_setWidth bytes.length
  | init sd key0 key1 | wu8 sd v | wu16 sd v | wu32 sd v | wu64 sd v | finish sd | copy sd ss | wusize sd v | dup sd ss =>
    rfl

/-- Settles O8: the words of a line are the encoding of its command, and the window of a slice reads as its bytes. -/
theorem assemblerFormsStandForTheirCommands : Obligations.AssemblerFormsStandForTheirCommands := by
  refine ⟨fun nsess l hwf => ?_, fun sd bytes a => ?_, fun _ _ => rfl, fun _ _ => rfl⟩
  · have hwords : (lineCommand l).words = encode (lineInstr l) := by
      rw [lineCommand, encode, lineCW_eq_encodeCW, lineOpnd_eq_encodeOpnd]
    exact hwords ▸ decodeOfEncodeIsTheCommand nsess (lineInstr l) hwf
  · exact byteAt_windowFrom bytes 0 a

/-! ### A step on a command presented (R60, R65) -/

theorem step_command {s : State} {c : Command} {rest : List HostInput} (hp : s.ph = .idle)
    (h : s.inputs = .command c :: rest) : step s = transact c { s with inputs := rest } := by
  rw [step_idle hp, idleStep, h]

theorem step_stepped {s : State} {c : Command} {rest : List HostInput} (hp : s.ph = .idle)
    (h : s.inputs = .stepped c :: rest) : step s = startCommand c { s with inputs := rest } := by
  rw [step_idle hp, idleStep, h]

/-- A command other than WRITE is the same transition when it is presented for micro-steps (R150). -/
theorem startCommand_decoded {c : Command} {s : State} {i : Instr} (h : decode s.cfg.nsess c.words = .ok i)
    (hi : i.opcode ≠ .write) : startCommand c s = exec i (openCommand c s) := by
  rcases startCommand_cases c s with ⟨hnone, -⟩ | ⟨sd, len, hwrite, -⟩ | ⟨j, hj, -, e⟩
  · exact absurd h (hnone i)
  · cases h.symm.trans hwrite
    exact absurd rfl hi
  · cases h.symm.trans hj
    exact e

/-- Settles O53: an idle block takes the command at the head of the host's moves, and its words decide what is run. -/
theorem aStepRunsTheDecodedCommand : Obligations.AStepRunsTheDecodedCommand := by
  refine ⟨fun s c rest i hp hins h => ?_, fun s c rest hp hins h => ?_, fun s c rest i hp hins h hi => ?_,
    fun s nbits w i h => ?_⟩
  · exact (step_command hp hins).trans (transact_decoded h)
  · exact (step_command hp hins).trans (transact_undecoded h)
  · exact (step_stepped hp hins).trans (startCommand_decoded h hi)
  · exact (step_command (c := ⟨wordsOfTable nbits w, []⟩) rfl rfl).trans (transact_decoded h)

end Sys2Proof.Machine

/-! ## The mixer datapath: rotation, product, MIX, UPDATE and ORD (40_mixer_primitives.md R91 to R99) -/

namespace Sys2Proof.Machine

/-! ### The rotation (R15, R99) -/

/-- Where each bit of a rotated word comes from: all that is said about `rotl64` below goes through this. -/
theorem rotl64_getLsbD (x : Word) {n i : Nat} (hn : n ≤ 64) (hi : i < 64) :
    (rotl64 x n).getLsbD i = x.getLsbD ((i + (64 - n)) % 64) := by
  simp only [rotl64, BitVec.getLsbD_or, BitVec.getLsbD_shiftLeft, BitVec.getLsbD_ushiftRight, hi]
  rcases Nat.lt_or_ge i n with h | h
  · have hsource : (i + (64 - n)) % 64 = 64 - n + i := by omega
    simp [h, hsource]
  · have hsource : (i + (64 - n)) % 64 = i - n := by omega
    have hout : x.getLsbD (64 - n + i) = false := BitVec.getLsbD_of_ge _ _ (by omega)
    simp [h, hsource, hout]

/-- Rotating on by the rest of the word gives the word back. -/
theorem rotl64_rotl64_sub (x : Word) {n : Nat} (hn : n ≤ 64) : rotl64 (rotl64 x n) (64 - n) = x := by
  refine BitVec.eq_of_getLsbD_eq fun i hi => ?_
  rw [rotl64_getLsbD _ (Nat.sub_le 64 n) hi, rotl64_getLsbD x hn (Nat.mod_lt _ (by decide))]
  congr 1
  omega

theorem rotl64_sub_rotl64 (x : Word) {n : Nat} (hn : n ≤ 64) : rotl64 (rotl64 x (64 - n)) n = x := by
  simpa [Nat.sub_sub_self hn] using rotl64_rotl64_sub x (Nat.sub_le 64 n)

/-- `rotl64` is the library's rotation. -/
theorem rotl64_eq_rotateLeft (x : Word) {n : Nat} (hn : n < 64) : rotl64 x n = x.rotateLeft n := by
  rw [BitVec.rotateLeft_def, Nat.mod_eq_of_lt hn, rotl64]

/-- The bit map of R99. -/
theorem rotl64_getLsbD_add_mod (x : Word) {n i : Nat} (hn : n ≤ 64) (hi : i < 64) :
    (rotl64 x n).getLsbD ((i + n) % 64) = x.getLsbD i := by
  rw [rotl64_getLsbD x hn (Nat.mod_lt _ (by decide))]
  congr 1
  omega

/-- The slice form of R99. -/
theorem rotl64_23_eq_append (x : Word) : rotl64 x 23 = x.extractLsb' 0 41 ++ x.extractLsb' 41 23 := by
  refine BitVec.eq_of_getLsbD_eq fun i hi => ?_
  rw [rotl64_getLsbD x (by decide) hi, BitVec.getLsbD_append]
  split_ifs with h
  · have hsource : (i + (64 - 23)) % 64 = 41 + i := by omega
    simp [hsource, h]
  · have hsource : (i + (64 - 23)) % 64 = i - 23 := by omega
    have hslice : i - 23 < 41 := by omega
    simp [hsource, hslice]

/-! ### The product (R92, R98) -/

theorem toNat_mod_two_of_odd {m : Word} (h : m.getLsbD 0 = true) : m.toNat % 2 = 1 := by
  simpa [BitVec.getLsbD, Nat.testBit_zero] using h

/-- An odd word is invertible modulo 2^64 (R92). -/
theorem isUnit_of_odd {m : Word} (h : m.getLsbD 0 = true) : IsUnit m := by
  have hcoprime : m.toNat.Coprime (2 ^ 64) :=
    (Nat.coprime_two_right.2 (Nat.odd_iff.2 (toNat_mod_two_of_odd h))).pow_right 64
  obtain ⟨k, -, hk⟩ := Nat.exists_mul_mod_eq_one_of_coprime hcoprime (by decide)
  refine isUnit_iff_exists_inv.2 ⟨BitVec.ofNat 64 k, BitVec.eq_of_toNat_eq ?_⟩
  rw [BitVec.toNat_mul, BitVec.toNat_ofNat, Nat.mul_mod_mod, hk]
  rfl

theorem exists_mul_eq_one_of_odd {m : Word} (h : m.getLsbD 0 = true) : ∃ minv : Word, m * minv = 1 :=
  isUnit_iff_exists_inv.1 (isUnit_of_odd h)

/-- The low bits of a product are made of the low bits of its factors (R92). -/
theorem mul_getLsbD_congr {m x y : Word} {i : Nat} (h : ∀ j, j ≤ i → x.getLsbD j = y.getLsbD j) :
    (x * m).getLsbD i = (y * m).getLsbD i := by
  rcases Nat.lt_or_ge i 64 with hi | hi
  · have hlow : x.setWidth (i + 1) = y.setWidth (i + 1) := by
      refine BitVec.eq_of_getLsbD_eq fun j hj => ?_
      simp [hj, h j (Nat.le_of_lt_succ hj)]
    have hprod : (x * m).setWidth (i + 1) = (y * m).setWidth (i + 1) := by
      rw [BitVec.setWidth_mul _ _ hi, BitVec.setWidth_mul _ _ hi, hlow]
    simpa using congrArg (·.getLsbD i) hprod
  · rw [BitVec.getLsbD_of_ge _ _ hi, BitVec.getLsbD_of_ge _ _ hi]

/-- An odd multiplier leaves the top bit where it is (R92). -/
theorem topBit_mul_of_odd {m : Word} (h : m.getLsbD 0 = true) :
    (0x8000000000000000 : Word) * m = 0x8000000000000000 := by
  have hodd := toNat_mod_two_of_odd h
  have htop : (0x8000000000000000 : Word).toNat = 2 ^ 63 := by decide
  apply BitVec.eq_of_toNat_eq
  rw [BitVec.toNat_mul, htop]
  omega

/-- Settles O14: each clause is a fact of the product or of the rotation; the examples are evaluated. -/
theorem productAndRotationAreAsStated : Obligations.ProductAndRotationAreAsStated := by
  refine ⟨fun x m => ⟨BitVec.toNat_mul x m, ?_⟩, by decide, rotl64_23_eq_append,
    fun x i hi => rotl64_getLsbD_add_mod x (by decide) hi, by decide, by decide⟩
  rw [BitVec.ofInt_mul, BitVec.ofInt_toInt, BitVec.ofInt_toInt]

/-! ### Bijections of words -/

theorem bijective64_iff {f : Word → Word} : Bijective64 f ↔ Function.Bijective f := Iff.rfl

theorem xor_bijective (v : Word) : Function.Bijective fun w : Word => v ^^^ w :=
  Function.Involutive.bijective fun w => by rw [← BitVec.xor_assoc, BitVec.xor_self, BitVec.zero_xor]

/-! ### MIX (R91, R92) -/

/-- Settles O9: the model's rotation is the library's; the example is evaluated. -/
theorem mixMultipliesRotatesMultiplies : Obligations.MixMultipliesRotatesMultiplies := by
  refine ⟨fun m x => ?_, by decide⟩
  rw [mix, Config.rotation, rotl64_eq_rotateLeft _ (by decide)]

@[simp] theorem mix_zero (m : Word) : mix m 0#64 = 0#64 := by
  have hrot : rotl64 0#64 Config.rotation = 0#64 := by decide
  rw [mix, BitVec.zero_mul, hrot, BitVec.zero_mul]

theorem mixInverse_mix {m minv : Word} (h : m * minv = 1) (x : Word) : mixInverse minv (mix m x) = x := by
  have hcancel (v : Word) : v * m * minv = v := by rw [BitVec.mul_assoc, h, mul_one]
  rw [mixInverse, mix, hcancel, rotl64_rotl64_sub _ (by decide), hcancel]

theorem mix_mixInverse {m minv : Word} (h : m * minv = 1) (y : Word) : mix m (mixInverse minv y) = y := by
  have hcancel (v : Word) : v * minv * m = v := by rw [BitVec.mul_assoc, BitVec.mul_comm minv, h, mul_one]
  rw [mixInverse, mix, hcancel, rotl64_sub_rotl64 _ (by decide), hcancel]

/-- `MIX` is a bijection for an odd multiplier: the inverse of the rule undoes it (R92). -/
theorem mix_bijective {m : Word} (h : m.getLsbD 0 = true) : Function.Bijective (mix m) := by
  obtain ⟨minv, hinv⟩ := exists_mul_eq_one_of_odd h
  exact Function.bijective_iff_has_inverse.2 ⟨mixInverse minv, mixInverse_mix hinv, mix_mixInverse hinv⟩

theorem mix_one_mult (x : Word) : mix 1 x = rotl64 x 23 := by simp [mix, Config.rotation]

theorem mix_topBit {m : Word} (h : m.getLsbD 0 = true) : mix m 0x8000000000000000 = 0x400000 * m := by
  have hrot : rotl64 0x8000000000000000 Config.rotation = 0x400000 := by decide
  rw [mix, topBit_mul_of_odd h, hrot]

/-- Settles O10: the inverse undoes product, rotation and product in turn, and an odd multiplier has one. -/
theorem mixIsABijectionForOddMultipliers : Obligations.MixIsABijectionForOddMultipliers :=
  ⟨mix_zero, fun _ h => bijective64_iff.2 (mix_bijective h), fun _ _ x h => ⟨mixInverse_mix h x, mix_mixInverse h x⟩,
    fun _ => exists_mul_eq_one_of_odd, by decide, mix_one_mult, fun _ _ _ _ => mul_getLsbD_congr,
    fun _ h => ⟨topBit_mul_of_odd h, mix_topBit h⟩⟩

/-! ### UPDATE (R93) -/

theorem update_zero_word (m a : Word) : update m a 0 = mix m a := BitVec.xor_zero

theorem update_zero_acc (m w : Word) : update m 0 w = w := by simp [update]

theorem update_bijective_word (m a : Word) : Function.Bijective fun w => update m a w := xor_bijective (mix m a)

theorem update_bijective_acc {m : Word} (h : m.getLsbD 0 = true) (w : Word) :
    Function.Bijective fun a => update m a w := by
  have hcomp : (fun a => update m a w) = (fun v => w ^^^ v) ∘ mix m := funext fun a => BitVec.xor_comm _ w
  exact hcomp ▸ (xor_bijective w).comp (mix_bijective h)

/-- Settles O11: XOR with a fixed word is its own inverse, and MIX is a bijection. -/
theorem updateMixesTheAccumulatorAndXorsTheWord : Obligations.UpdateMixesTheAccumulatorAndXorsTheWord :=
  ⟨fun _ _ _ => rfl, update_zero_word, update_zero_acc, fun m a => bijective64_iff.2 (update_bijective_word m a),
    fun _ w h => bijective64_iff.2 (update_bijective_acc h w), by decide, by decide⟩

/-! ### ORD and runs of ORD steps (R95, R96) -/

theorem ord_key_wraps (m inc a w : Word) : (ord m inc a w 0xFFFFFFFFFFFFFFFF).2 = inc - 1 := by
  rw [ord]
  bv_omega

theorem ord_word_eq_key (m inc a k : Word) : ord m inc a k k = (a, k + inc) := by
  simp [ord]

/-- Settles O12: the corner cases are those of `MIX(0)` and of the wrapping sum; the example is evaluated. -/
theorem ordMixesTheWordUnderTheKey : Obligations.OrdMixesTheWordUnderTheKey :=
  ⟨fun _ _ _ _ _ => rfl, ord_key_wraps, by decide, ord_word_eq_key, by decide, by decide⟩

/-- Neighbouring keys of a run are one increment apart (R96). -/
theorem key_succ (inc k : Word) (n : Nat) :
    k + BitVec.ofNat 64 (n + 1) * inc = k + BitVec.ofNat 64 n * inc + inc := by
  rw [BitVec.ofNat_add, BitVec.add_mul, BitVec.one_mul, BitVec.add_assoc]

/-- A run of `ORD` steps is a XOR of terms beside an arithmetic progression of keys (R96). -/
theorem ordRun_eq (p : Params) (b : Nat → Word) (n : Nat) (a k : Word) :
    ordRun p b n (a, k) = (a ^^^ xorOfTerms p k b n, k + BitVec.ofNat 64 n * p.inc) := by
  induction n with
  | zero => simp [ordRun, xorOfTerms]
  | succ n ih => rw [ordRun, ih, ord, xorOfTerms, key_succ, BitVec.xor_assoc]

theorem key_ne_next {inc : Word} (h : inc ≠ 0) (k : Word) (n : Nat) :
    k + BitVec.ofNat 64 n * inc ≠ k + BitVec.ofNat 64 (n + 1) * inc := by
  rw [key_succ]
  exact fun heq => h (left_eq_add.1 heq)

/-- Under an odd increment no key comes twice within 2^64 steps (R96). -/
theorem key_injective {inc : Word} (h : inc.getLsbD 0 = true) (k : Word) {i j : Nat} (hi : i < 2 ^ 64) (hj : j < 2 ^ 64)
    (heq : k + BitVec.ofNat 64 i * inc = k + BitVec.ofNat 64 j * inc) : i = j := by
  have hindex : BitVec.ofNat 64 i = BitVec.ofNat 64 j := (isUnit_of_odd h).mul_left_inj.1 ((BitVec.add_right_inj k).1 heq)
  have hvalue := congrArg BitVec.toNat hindex
  rwa [BitVec.toNat_ofNat, BitVec.toNat_ofNat, Nat.mod_eq_of_lt hi, Nat.mod_eq_of_lt hj] at hvalue

/-- Settles O13, by induction on the number of steps; odd increments are invertible. -/
theorem ordRunXorsIndependentTerms : Obligations.OrdRunXorsIndependentTerms :=
  ⟨ordRun_eq, fun _ k n h => key_ne_next h k n, fun _ k _ _ h hi hj hne heq => hne (key_injective h k hi hj heq)⟩

end Sys2Proof.Machine

/-! ## INIT and COPY, and runs of commands (41_init_copy.md R110 to R115) -/

namespace Sys2Proof.Machine

/-! ### Decoding a command word put together from its fields (R61, R64, R68) -/

/-- A word that codes for an operation decodes to it unless a slot is missing: the destination is checked first, and the
source for COPY only (R68). -/
theorem decode_of_codesFor {op : Opcode} {w : Words} (h : CodesFor op w.cw) (nsess : Nat) :
    decode nsess w =
      if (sdField w.cw).val < nsess then
        if op = .copy ∧ nsess ≤ (ssField w.cw).val then .error .sourceRange
        else .ok (assemble op (sdField w.cw) (ssField w.cw) w.opnd)
      else .error .slotRange := by
  obtain ⟨hcode, hrsv, hsource⟩ := h
  have hbits : ¬ (op ≠ .copy ∧ ssField w.cw ≠ 0) := fun ⟨hop, hss⟩ => hss (hsource hop)
  have hlegal : illegality nsess op w.cw =
      if (sdField w.cw).val < nsess then
        if op = .copy ∧ nsess ≤ (ssField w.cw).val then some .sourceRange else none
      else some .slotRange := by
    rw [illegality, if_neg (not_not.2 hrsv), if_neg hbits]
    by_cases hsd : (sdField w.cw).val < nsess <;> simp [Slot.inRange, hsd]
  simp only [decode, ofCode_eq_some_iff.2 hcode, hlegal]
  split_ifs <;> rfl

/-- A command word put together from an operation and slots: what it decodes to depends on which slots exist. -/
theorem decode_fields {op : Opcode} {ss : Slot} (h : op ≠ .copy → ss = 0) (nsess : Nat) (sd : Slot)
    (opnd : BitVec 128) :
    decode nsess ⟨op.code ++ BitVec.ofFin (w := 4) sd ++ BitVec.ofFin (w := 4) ss ++ (0 : BitVec 4), opnd⟩ =
      if sd.val < nsess then
        if op = .copy ∧ nsess ≤ ss.val then .error .sourceRange else .ok (assemble op sd ss opnd)
      else .error .slotRange := by
  obtain ⟨hop, hsd, hss, hrsv⟩ := fields_of_append op.code sd ss
  have hcodes : CodesFor op (op.code ++ BitVec.ofFin (w := 4) sd ++ BitVec.ofFin (w := 4) ss ++ (0 : BitVec 4)) :=
    ⟨hop, hrsv, fun hcopy => hss.trans (h hcopy)⟩
  rw [decode_of_codesFor (w := ⟨_, opnd⟩) hcodes, hsd, hss]

/-- A command other than COPY names one slot. -/
theorem decode_cwOf {op : Opcode} (h : op ≠ .copy) (nsess : Nat) (sd : Slot) (opnd : BitVec 128) :
    decode nsess ⟨cwOf (op.code ++ 0#12) sd, opnd⟩ =
      if sd.val < nsess then .ok (assemble op sd 0 opnd) else .error .slotRange := by
  rw [cwOf_append]
  exact (decode_fields (fun _ => rfl) nsess sd opnd).trans (by simp [h])

/-- COPY names two slots, the destination being checked before the source. -/
theorem decode_copyWord (nsess : Nat) (sd ss : Slot) (opnd : BitVec 128) :
    decode nsess ⟨cwOf 0x9000 sd + (BitVec.ofNat 16 ss.val <<< 4), opnd⟩ =
      if sd.val < nsess then (if ss.val < nsess then .ok (.copy sd ss) else .error .sourceRange)
      else .error .slotRange := by
  rw [cwOf_add_source]
  refine (decode_fields (op := .copy) (absurd rfl) nsess sd opnd).trans ?_
  simp only [true_and, ← Nat.not_lt, ite_not, assemble]

/-! ### INIT and COPY (R110, R111, R114) -/

/-- The whole change of a command that answers no digest and does not use the slice processor: its destination slot. -/
theorem effect_slotWritten {i : Instr} (hfinish : i.opcode ≠ .finish) (hwrite : i.opcode ≠ .write) (s : State) :
    SlotWritten i.dest (getAcc i.dest (effect i s)) (isLive i.dest (effect i s)) s (effect i s) where
  acc := rfl
  live := rfl
  rsp := by rw [effect_rsp, if_neg hfinish]
  valid := effect_rspValid i s
  others := ⟨fun _ hj => effect_getAcc_other hj s, fun _ hj => effect_isLive_other hj s⟩
  hidden := effect_hidden hwrite s
  frame := effect_frame i s

/-- The initial accumulator, with the library's rotation. -/
theorem initialAcc_eq (key0 key1 : Word) : initialAcc key0 key1 = key0 ^^^ key1.rotateLeft 23 := by
  rw [initialAcc, Config.rotation, rotl64_eq_rotateLeft key1 (by decide)]

/-- For each `key1`, `key0` reaches every accumulator value once (R111). -/
theorem initialAcc_bijective (key1 : Word) : Function.Bijective fun key0 => initialAcc key0 key1 := by
  have hcomm : (fun key0 => initialAcc key0 key1) = fun key0 => rotl64 key1 Config.rotation ^^^ key0 :=
    funext fun key0 => BitVec.xor_comm key0 _
  exact hcomm ▸ xor_bijective _

/-- INIT stores the initial accumulator. -/
theorem effect_init_getAcc (sd : Slot) (key0 key1 : Word) (s : State) :
    getAcc sd (effect (.init sd key0 key1) s) = key0 ^^^ key1.rotateLeft 23 := by
  simp [effect, initialAcc_eq]

/-- INIT passes its only check on every slot of the block (R110). -/
theorem exec_init {sd : Slot} {s : State} (h : Slot.inRange s.cfg.nsess sd = true) (key0 key1 : Word) :
    exec (.init sd key0 key1) s = .next (effect (.init sd key0 key1) s) :=
  exec_effect h fun _ hneed => nomatch hneed

theorem init_slotWritten (sd : Slot) (key0 key1 : Word) (s : State) :
    SlotWritten sd (key0 ^^^ key1.rotateLeft 23) true s (effect (.init sd key0 key1) s) := by
  have h := effect_slotWritten (i := .init sd key0 key1) nofun nofun s
  rwa [effect_isLive_dest (.inl rfl), Instr.dest, effect_init_getAcc] at h

/-- Settles O19: the word is read by its fields, and the effect of INIT is on its slot alone. -/
theorem initCreatesASession : Obligations.InitCreatesASession :=
  ⟨decode_cwOf (op := .init) (by decide), fun _ sd key0 key1 => exec_illegal (i := .init sd key0 key1),
    fun s sd key0 key1 h => ⟨_, exec_init h key0 key1, init_slotWritten sd key0 key1 s⟩, by decide⟩

/-- INIT uses its keys through the initial accumulator alone (R111). -/
theorem exec_init_congr {k0 k1 k0' k1' : Word} (h : initialAcc k0 k1 = initialAcc k0' k1') (sd : Slot) (s : State) :
    exec (.init sd k0 k1) s = exec (.init sd k0' k1') s := by
  simp only [exec, execInit, h]

/-- Settles O20: XOR with the rotated `key1` is a bijection. -/
theorem sessionsDependOnlyOnTheMixedKeys : Obligations.SessionsDependOnlyOnTheMixedKeys := by
  refine ⟨fun s sd k0 k1 k0' k1' h => exec_init_congr ?_ sd s, fun a k1 => ?_, by decide⟩
  · rwa [initialAcc_eq, initialAcc_eq]
  · exact (initialAcc_bijective k1).existsUnique a

/-- COPY completes on a source that is ready, whatever the destination holds (R114). -/
theorem exec_copy {sd ss : Slot} {s : State} (hd : Slot.inRange s.cfg.nsess sd = true) (hs : Ready ss s) :
    exec (.copy sd ss) s = .next (effect (.copy sd ss) s) := by
  obtain ⟨hsrc, hlive⟩ := hs
  refine exec_effect (by simp [Instr.wf, hd, hsrc]) fun n hneed => ?_
  cases hneed
  exact hlive

theorem copy_slotWritten (sd ss : Slot) (s : State) :
    SlotWritten sd (getAcc ss s) true s (effect (.copy sd ss) s) := by
  have h := effect_slotWritten (i := .copy sd ss) nofun nofun s
  have hacc : getAcc sd (effect (.copy sd ss) s) = getAcc ss s := by simp [effect]
  rwa [effect_isLive_dest (.inr rfl), Instr.dest, hacc] at h

/-- COPY of a live slot onto itself writes back what is there (D26). -/
theorem copy_self_slots {sd : Slot} {s : State} (hlive : isLive sd s = true) :
    (effect (.copy sd sd) s).acc = s.acc ∧ (effect (.copy sd sd) s).live = s.live := by
  have hflag : s.live[sd.val] = true := hlive
  constructor
  · simp [effect, getAcc]
  · simp [effect, ← hflag]

/-- Settles O21: the slots are checked before the source's flag, and the effect of COPY is on its destination alone. -/
theorem copyDuplicatesASession : Obligations.CopyDuplicatesASession := by
  refine ⟨decode_copyWord, fun s sd ss h => exec_illegal ?_, fun s sd ss hd hs => ?_, fun s sd ss hd hs => ?_⟩
  · rcases h with h | h <;> simp [Instr.wf, h]
  · exact exec_notLive (by simp [Instr.wf, hd, hs]) rfl
  · refine ⟨_, exec_copy hd hs, copy_slotWritten sd ss s, ?_⟩
    rintro rfl
    exact copy_self_slots hs.2

/-! ### Runs of commands (R52, R60) -/

theorem runCommands_cons {c : Instr × Memory} {s t : State} (h : exec c.1 (withWindow c.2 s) = .next t)
    (cs : List (Instr × Memory)) : runCommands (c :: cs) s = runCommands cs t := by
  simp only [runCommands, h]

theorem responses_cons {c : Instr × Memory} {s t : State} (h : exec c.1 (withWindow c.2 s) = .next t)
    (cs : List (Instr × Memory)) : responses (c :: cs) s = t.rsp :: responses cs t := by
  simp only [responses, h]

/-- A run of commands none of which has slot `j` for its destination keeps that slot (R23). -/
theorem runCommands_keeps_slot {cs : List (Instr × Memory)} {j : Slot} {s t : State} (hcs : ∀ c ∈ cs, c.1.dest ≠ j)
    (h : runCommands cs s = .next t) : SameSlot j s t := by
  induction cs generalizing s with
  | nil => cases h; exact ⟨rfl, rfl⟩
  | cons c cs ih =>
    obtain ⟨hc, hrest⟩ := List.forall_mem_cons.1 hcs
    obtain ⟨u, hu⟩ := exec_answers c.1 (withWindow c.2 s)
    obtain ⟨hacc, hlive⟩ := ih hrest ((runCommands_cons hu cs).symm.trans h)
    obtain ⟨haccs, hlives⟩ := exec_otherSlotsFrame hu
    exact ⟨hacc.trans (haccs j hc.symm), hlive.trans (hlives j hc.symm)⟩

/-! ### Before the first INIT (R113) -/

/-- Only INIT needs no session (R192). -/
theorem needs_of_not_init {i : Instr} (h : i.opcode ≠ .init) : ∃ n, i.needs = some n := by
  cases i with
  | init sd key0 key1 => exact absurd rfl h
  | copy sd ss => exact ⟨ss, rfl⟩
  | wu8 sd v | wu16 sd v | wu32 sd v | wu64 sd v | wu128 sd lo hi | write sd len | finish sd => exact ⟨sd, rfl⟩

/-- Where no slot is live a command other than INIT finds no session, faults, and leaves no slot live. -/
theorem exec_nothingLive {i : Instr} {s t : State} (hs : NothingLive s) (hi : i.opcode ≠ .init)
    (h : exec i s = .next t) : NothingLive t ∧ t.rsp.status ≠ .ok := by
  rcases exec_next_fault_or_effect h with ⟨st, hst, rfl⟩ | ⟨hmet, -⟩
  · exact ⟨hs, hst⟩
  · obtain ⟨n, hn⟩ := needs_of_not_init hi
    exact absurd (hmet n hn) (by simp [hs n])

/-- Settles O50, by induction on the sequence: each command faults and hands on a state without a live slot. -/
theorem nothingSucceedsBeforeTheFirstInit : Obligations.NothingSucceedsBeforeTheFirstInit := by
  intro cs
  induction cs with
  | nil => exact fun s hs _ => ⟨⟨s, rfl, hs⟩, List.forall_mem_nil _⟩
  | cons c cs ih =>
    intro s hs hcs
    obtain ⟨hc, hrest⟩ := List.forall_mem_cons.1 hcs
    obtain ⟨t, ht⟩ := exec_answers c.1 (withWindow c.2 s)
    obtain ⟨hdead, hfault⟩ := exec_nothingLive (s := withWindow c.2 s) hs hc ht
    rw [runCommands_cons ht, responses_cons ht, List.forall_mem_cons]
    exact (ih t hdead hrest).imp_right fun hfaults => ⟨hfault, hfaults⟩

/-! ### The same commands on two slots (R115) -/

@[simp] theorem retarget_opcode (d : Slot) (i : Instr) : (retarget d i).opcode = i.opcode := by cases i <;> rfl

@[simp] theorem retarget_dest (d : Slot) (i : Instr) : (retarget d i).dest = d := by cases i <;> rfl

/-- A command other than COPY needs no slot but the one it is retargeted to. -/
theorem retarget_needs {d n : Slot} {i : Instr} (hi : i.opcode ≠ .copy) (h : (retarget d i).needs = some n) : n = d := by
  cases i with
  | copy sd ss => exact absurd rfl hi
  | init sd key0 key1 => exact nomatch h
  | wu8 sd v | wu16 sd v | wu32 sd v | wu64 sd v | wu128 sd lo hi | write sd len | finish sd => cases h; rfl

/-- On a slot that is ready a command other than COPY has its effect. -/
theorem exec_retarget {d : Slot} {i : Instr} {s : State} (hi : i.opcode ≠ .copy) (h : Ready d s) :
    exec (retarget d i) s = .next (effect (retarget d i) s) := by
  obtain ⟨hrange, hlive⟩ := h
  refine exec_effect (wf_iff.2 ⟨?_, fun hcopy => absurd ((retarget_opcode d i).symm.trans hcopy) hi⟩)
    fun n hneed => retarget_needs hi hneed ▸ hlive
  exact (retarget_dest d i).symm ▸ slot_inRange_iff.1 hrange

/-- A slot that is ready stays so. -/
theorem effect_keeps_ready {d : Slot} {s : State} (h : Ready d s) (i : Instr) : Ready d (effect i s) := by
  obtain ⟨hrange, hlive⟩ := h
  exact ⟨(effect_frame i s).cfg ▸ hrange, effect_keeps_live hlive⟩

/-- Slot `a` of one state and slot `b` of another with the same parameters hold the same session. -/
structure SameSession (a b : Slot) (s s' : State) : Prop where
  cfg : s'.cfg = s.cfg
  source : Ready a s
  target : Ready b s'
  acc : getAcc b s' = getAcc a s

theorem SameSession.withWindow {a b : Slot} {s s' : State} (h : SameSession a b s s') (m : Memory) :
    SameSession a b (withWindow m s) (withWindow m s') :=
  ⟨h.cfg, h.source, h.target, h.acc⟩

section
variable {a b : Slot} {i : Instr} {s s' : State} (hi : i.opcode ≠ .copy) (h : SameSession a b s s')
include hi h

/-- What a command stores does not depend on which slot holds the session. -/
theorem effect_retarget_getAcc (hw : s'.win = s.win) :
    getAcc b (effect (retarget b i) s') = getAcc a (effect (retarget a i) s) := by
  obtain ⟨hcfg, -, -, hacc⟩ := h
  cases i with
  | copy sd ss => exact absurd rfl hi
  | init sd key0 key1 | wu8 sd v | wu16 sd v | wu32 sd v | wu64 sd v | wu128 sd lo hi =>
    simp [effect, retarget, hcfg, hacc]
  | write sd len =>
    simp only [effect, retarget, getAcc_respond, getAcc_commitSlice_same, hcfg, hw]
    exact absorbSlice_acc_congr _ _ _ (by simp [hacc])
  | finish sd => exact hacc

/-- The same command on two slots with the same session leaves the same session in them and answers the same. -/
theorem effect_retarget_sameSession (hw : s'.win = s.win) :
    SameSession a b (effect (retarget a i) s) (effect (retarget b i) s') ∧
      (effect (retarget b i) s').rsp = (effect (retarget a i) s).rsp := by
  refine ⟨⟨?_, effect_keeps_ready h.source _, effect_keeps_ready h.target _, effect_retarget_getAcc hi h hw⟩, ?_⟩
  · rw [(effect_frame _ _).cfg, (effect_frame _ _).cfg, h.cfg]
  · simp only [effect_rsp, retarget_opcode, retarget_dest, h.cfg, h.acc]

end

/-- A sequence of commands on two slots with the same session, by induction on the sequence. -/
theorem runCommands_sameSession {cs : List (Instr × Memory)} {a b : Slot} {s s' : State}
    (hcs : ∀ c ∈ cs, c.1.opcode ≠ .copy) (h : SameSession a b s s') :
    ∃ t u, runCommands (retargetAll a cs) s = .next t ∧ runCommands (retargetAll b cs) s' = .next u ∧
      SameSession a b t u ∧ responses (retargetAll a cs) s = responses (retargetAll b cs) s' := by
  induction cs generalizing s s' with
  | nil => exact ⟨s, s', rfl, rfl, h, rfl⟩
  | cons c cs ih =>
    obtain ⟨i, m⟩ := c
    obtain ⟨hi, hrest⟩ := List.forall_mem_cons.1 hcs
    have hm := h.withWindow m
    have hs : exec (retarget a i) (withWindow m s) = _ := exec_retarget hi hm.source
    have hs' : exec (retarget b i) (withWindow m s') = _ := exec_retarget hi hm.target
    obtain ⟨hsame, hrsp⟩ := effect_retarget_sameSession hi hm rfl
    obtain ⟨t, u, ht, hu, htu, hresponses⟩ := ih hrest hsame
    refine ⟨t, u, (runCommands_cons hs _).trans ht, (runCommands_cons hs' _).trans hu, htu, ?_⟩
    calc responses (retargetAll a ((i, m) :: cs)) s
      _ = (effect (retarget a i) (withWindow m s)).rsp :: responses (retargetAll a cs) _ := responses_cons hs _
      _ = (effect (retarget b i) (withWindow m s')).rsp :: responses (retargetAll b cs) _ := by rw [hrsp, hresponses]
      _ = responses (retargetAll b ((i, m) :: cs)) s' := (responses_cons hs' _).symm

/-- Commands retargeted to one slot keep every other. -/
theorem runCommands_retargetAll_other {cs : List (Instr × Memory)} {d j : Slot} (hj : d ≠ j) {s t : State}
    (h : runCommands (retargetAll d cs) s = .next t) : SameSlot j s t := by
  refine runCommands_keeps_slot (fun c hc => ?_) h
  obtain ⟨c', -, rfl⟩ := List.mem_map.1 hc
  exact (retarget_dest d c'.1).symm ▸ hj

/-- Settles O51: the two runs hold the same session in their two slots all along, and each keeps the other's slot. -/
theorem equalSlotsStayEqual : Obligations.EqualSlotsStayEqual := by
  intro cs s a b hab ha hb hacc hcs
  obtain ⟨t, u, ht, hu, hsame, hresponses⟩ := runCommands_sameSession hcs ⟨rfl, ha, hb, hacc.symm⟩
  obtain ⟨hother, -⟩ := runCommands_retargetAll_other hab ht
  obtain ⟨hother', -⟩ := runCommands_retargetAll_other hab.symm hu
  exact ⟨t, u, ht, hu, hsame.acc.symm, hresponses, hother, hother'⟩

end Sys2Proof.Machine

/-! ## The fixed-width writes (42_fixed_width.md R120 to R128) -/

namespace Sys2Proof.Machine

/-! ### A write of any width is WU64 of its value, zero-extended (R120, R127) -/

theorem exec_wu8 (sd : Slot) (v : BitVec 8) (s : State) : exec (.wu8 sd v) s = exec (.wu64 sd (zext64 v)) s := rfl

theorem exec_wu16 (sd : Slot) (v : BitVec 16) (s : State) : exec (.wu16 sd v) s = exec (.wu64 sd (zext64 v)) s := rfl

theorem exec_wu32 (sd : Slot) (v : BitVec 32) (s : State) : exec (.wu32 sd v) s = exec (.wu64 sd (zext64 v)) s := rfl

/-- A value of 64 bits is its own extension. -/
theorem zext64_word (v : Word) : zext64 v = v := BitVec.setWidth_eq v

/-- A value widened first to a width that holds it has the same extension. -/
theorem zext64_setWidth {w n : Nat} (h : w ≤ n) (v : BitVec w) : zext64 (v.setWidth n) = zext64 v :=
  BitVec.setWidth_setWidth (by omega)

/-- Settles O30: each write is WU64 of the same extension. -/
theorem widthDoesNotEnterTheResult : Obligations.WidthDoesNotEnterTheResult := by
  refine ⟨fun s sd x => ⟨?_, ?_, exec_wu8 sd x s⟩, fun s sd x => ⟨?_, exec_wu16 sd x s⟩, fun s sd x => exec_wu32 sd x s⟩
  · rw [exec_wu8, exec_wu16, zext64_setWidth (by decide)]
  · rw [exec_wu8, exec_wu32, zext64_setWidth (by decide)]
  · rw [exec_wu16, exec_wu32, zext64_setWidth (by decide)]

/-! ### What the writes leave in their slot (R121 to R125) -/

theorem retarget_self (i : Instr) : retarget i.dest i = i := by cases i <;> rfl

/-- A command other than COPY passes both checks on a slot that is ready. -/
theorem exec_ready {i : Instr} {s : State} (hi : i.opcode ≠ .copy) (h : Ready i.dest s) :
    exec i s = .next (effect i s) := by
  have hexec := exec_retarget hi h
  rwa [retarget_self] at hexec

theorem effect_wu64_getAcc (sd : Slot) (v : Word) (s : State) :
    getAcc sd (effect (.wu64 sd v) s) = update s.cfg.mult (getAcc sd s) v := by
  simp [effect]

theorem effect_wu128_getAcc (sd : Slot) (lo hi : Word) (s : State) :
    getAcc sd (effect (.wu128 sd lo hi) s) = update s.cfg.mult (update s.cfg.mult (getAcc sd s) lo) hi := by
  simp [effect]

/-- A command that answers no digest and does not use the slice processor, on a slot that is ready: it completes, and its
whole change is what it absorbs. -/
theorem absorbing_completes {i : Instr} {s : State} (hi : i.opcode ≠ .copy) (hfinish : i.opcode ≠ .finish)
    (hwrite : i.opcode ≠ .write) (h : Ready i.dest s) :
    ∃ t, exec i s = .next t ∧ SlotWritten i.dest (getAcc i.dest (effect i s)) true s t := by
  have hslot := effect_slotWritten hfinish hwrite s
  rw [effect_keeps_live h.2] at hslot
  exact ⟨_, exec_ready hi h, hslot⟩

/-- WU64 absorbs its word (R124). -/
theorem wu64_completes {sd : Slot} {s : State} (h : Ready sd s) (v : Word) :
    ∃ t, exec (.wu64 sd v) s = .next t ∧ SlotWritten sd (update s.cfg.mult (getAcc sd s) v) true s t := by
  rw [← effect_wu64_getAcc]
  exact absorbing_completes (i := .wu64 sd v) nofun nofun nofun h

theorem exec_wu64_getAcc {sd : Slot} {v : Word} {s t : State} (h : Ready sd s) (ht : exec (.wu64 sd v) s = .next t) :
    getAcc sd t = update s.cfg.mult (getAcc sd s) v := by
  rw [exec_ready (i := .wu64 sd v) nofun h] at ht
  cases ht
  exact effect_wu64_getAcc sd v s

/-- WU128 absorbs its two words, the low one first (R125). -/
theorem wu128_completes {sd : Slot} {s : State} (h : Ready sd s) (lo hi : Word) :
    ∃ t, exec (.wu128 sd lo hi) s = .next t ∧
      SlotWritten sd (update s.cfg.mult (update s.cfg.mult (getAcc sd s) lo) hi) true s t := by
  rw [← effect_wu128_getAcc]
  exact absorbing_completes (i := .wu128 sd lo hi) nofun nofun nofun h

/-! ### The rule of one width (R121 to R124) -/

/-- The rule for an operation that is assembled from the low `w` bits of its operand and performed as WU64 of their
extension. -/
theorem fixedWidthRule_of_wu64 {w : Nat} {op : Opcode} {command : Slot → BitVec w → Instr} {x : BitVec w} {r : Word}
    (hop : op ≠ .copy) (hassemble : ∀ sd opnd, assemble op sd 0 opnd = command sd (opnd.extractLsb' 0 w))
    (hexec : ∀ sd v s, exec (command sd v) s = exec (.wu64 sd (zext64 v)) s)
    (hexample : update Params.default.mult 0x4D186F7E81D4A3B2 (zext64 x) = r) :
    FixedWidthRule w (op.code ++ 0#12) command x r := by
  refine ⟨fun nsess sd opnd => ?_, fun s sd v hlack => ?_, fun s sd v hrange hdead => ?_, fun s sd v h => ?_, hexample⟩
  · rw [decode_cwOf hop, hassemble]
  · exact (hexec sd v s).trans (exec_illegal (i := .wu64 sd _) hlack)
  · exact (hexec sd v s).trans (exec_notLive (i := .wu64 sd _) hrange rfl hdead)
  · rw [hexec]
    exact wu64_completes h (zext64 v)

/-- Settles O25: `WU8` is `WU64` of the extended byte; the example is evaluated. -/
theorem wu8AbsorbsAByte : Obligations.Wu8AbsorbsAByte :=
  fixedWidthRule_of_wu64 (op := .wu8) (by decide) (fun _ _ => rfl) exec_wu8 (by decide)

/-- Settles O26: `WU16` is `WU64` of the extended halfword; the example is evaluated. -/
theorem wu16AbsorbsAHalfword : Obligations.Wu16AbsorbsAHalfword :=
  fixedWidthRule_of_wu64 (op := .wu16) (by decide) (fun _ _ => rfl) exec_wu16 (by decide)

/-- Settles O27: `WU32` is `WU64` of the extended value; the example is evaluated. -/
theorem wu32AbsorbsA32BitValue : Obligations.Wu32AbsorbsA32BitValue :=
  fixedWidthRule_of_wu64 (op := .wu32) (by decide) (fun _ _ => rfl) exec_wu32 (by decide)

/-- Settles O28: a word is its own extension; the example is evaluated. -/
theorem wu64AbsorbsAWord : Obligations.Wu64AbsorbsAWord :=
  fixedWidthRule_of_wu64 (op := .wu64) (by decide) (fun _ _ => rfl) (fun sd v s => by rw [zext64_word]) (by decide)

/-! ### WU128 is WU64 of each half (R125) -/

/-- Two WU64 in a row have the effect of one WU128. -/
theorem effect_wu64_wu64 (sd : Slot) (lo hi : Word) (s : State) :
    effect (.wu64 sd hi) (effect (.wu64 sd lo) s) = effect (.wu128 sd lo hi) s :=
  calc effect (.wu64 sd hi) (effect (.wu64 sd lo) s)
    _ = effect (.wu64 sd hi) (setAcc sd (update s.cfg.mult (getAcc sd s) lo) s) := effect_respond _ _ _ _
    _ = effect (.wu128 sd lo hi) s := by simp [effect]

/-- The fault that the first WU64 raises is raised again by the second, and by WU128. -/
theorem exec_wu128_eq_wu64_wu64 (sd : Slot) (lo hi : Word) (s : State) :
    ∃ t, exec (.wu64 sd lo) s = .next t ∧ exec (.wu128 sd lo hi) s = exec (.wu64 sd hi) t := by
  rcases exec_cases (.wu64 sd lo) s with ⟨hwf, h⟩ | ⟨hwf, ⟨n, hneed, hdead⟩, h⟩ | ⟨hwf, hmet, h⟩
  · refine ⟨_, h, ?_⟩
    rw [exec_illegal (i := .wu128 sd lo hi) hwf, exec_illegal (i := .wu64 sd hi) (s := respond _ _ s) hwf]
    rfl
  · refine ⟨_, h, ?_⟩
    rw [exec_notLive (i := .wu128 sd lo hi) hwf hneed hdead,
      exec_notLive (i := .wu64 sd hi) (s := respond _ _ s) hwf hneed hdead]
    rfl
  · have hready : Ready sd s := ⟨hwf, hmet sd rfl⟩
    refine ⟨_, h, ?_⟩
    rw [exec_ready (i := .wu128 sd lo hi) nofun hready, ← effect_wu64_wu64]
    exact (exec_ready (i := .wu64 sd hi) nofun (effect_keeps_ready hready _)).symm

/-- Settles O29: the word and the checks as for one width; the effect is that of two WU64. -/
theorem wu128AbsorbsTwoWordsLowFirst : Obligations.Wu128AbsorbsTwoWordsLowFirst :=
  ⟨decode_cwOf (op := .wu128) (by decide), fun _ sd lo hi => exec_illegal (i := .wu128 sd lo hi),
    fun _ sd lo hi hrange => exec_notLive (i := .wu128 sd lo hi) hrange rfl, fun _ _ lo hi h => wu128_completes h lo hi,
    fun s sd lo hi => exec_wu128_eq_wu64_wu64 sd lo hi s, by decide⟩

/-! ### Slices of 1 and of 8 bytes (R143, R145) -/

theorem memRead_one (m : Memory) (off : Word) : memRead m off 1 = zext64 (byteAt m off.toNat) := by
  simp [memRead]

/-- A read is put together from two shorter ones, if it does not wrap. -/
theorem memRead_add (m : Memory) {off k : Word} (hwrap : off.toNat + k.toNat < 2 ^ 64) (n : Nat) :
    memRead m off (k.toNat + n) = memRead m off k.toNat ||| memRead m (off + k) n <<< (8 * k.toNat) := by
  have hoff : (off + k).toNat = off.toNat + k.toNat := BitVec.toNat_add_of_lt hwrap
  induction n with
  | zero => simp [memRead]
  | succ n ih =>
    rw [← Nat.add_assoc, memRead, ih, memRead, hoff, BitVec.shiftLeft_or_distrib, ← BitVec.shiftLeft_add, BitVec.or_assoc,
      Nat.add_assoc, Nat.mul_add, Nat.add_comm (8 * n)]

/-- `pack32` puts the last 4 bytes above the first 4 (R145). -/
theorem pack32_eq_or {first last : Word} (hfirst : first.toNat < 2 ^ 32) (hlast : last.toNat < 2 ^ 32) :
    pack32 first last = last <<< 32 ||| first := by
  have hlow {x : Word} (hx : x.toNat < 2 ^ 32) : (x.extractLsb' 0 32).setWidth 64 = x := by
    apply BitVec.eq_of_toNat_eq
    rw [BitVec.toNat_setWidth_of_le (by decide), BitVec.extractLsb'_toNat, Nat.shiftRight_zero, Nat.mod_eq_of_lt hx]
  rw [pack32, zext64, BitVec.setWidth_append_eq_shiftLeft_setWidth_or, hlow hfirst, hlow hlast]

/-- The two windows of a slice of 8 bytes are its halves (R145). -/
theorem band4Word_eight (m : Memory) : band4Word m 8 = memRead m 0 8 :=
  calc band4Word m 8
    _ = memRead m 4 4 <<< 32 ||| memRead m 0 4 :=
      pack32_eq_or (memRead_toNat_lt m 0 (n := 4) (by decide)) (memRead_toNat_lt m 4 (n := 4) (by decide))
    _ = memRead m 0 4 ||| memRead m 4 4 <<< 32 := BitVec.or_comm ..
    _ = memRead m 0 8 := (memRead_add m (off := 0) (k := 4) (by decide) 4).symm

theorem absorbSlice_band1 (p : Params) (m : Memory) (r : SliceRegs) :
    absorbSlice p m 1 r = { r with a := update p.mult r.a (band1Word m) } := rfl

/-- Slices of 4 to 8 bytes are those of band 4. -/
theorem absorbSlice_band4 {len : Word} (hmin : 4 ≤ len) (hmax : len ≤ 8) (p : Params) (m : Memory) (r : SliceRegs) :
    absorbSlice p m len r = { r with a := update p.mult r.a (band4Word m len) } := by
  have hlen : len ≠ 0 ∧ len ≠ 1 ∧ ¬ len ≤ 3 := by bv_omega
  obtain ⟨h0, h1, h3⟩ := hlen
  rw [absorbSlice, if_neg h0, if_neg h1, if_neg h3, if_pos hmax]

/-- What WRITE leaves in a slot that is ready: the length is added, then the band absorbs the bytes (R140). -/
theorem exec_write_getAcc {sd : Slot} {len : Word} {s u : State} (h : Ready sd s)
    (hu : exec (.write sd len) s = .next u) :
    getAcc sd u = (absorbSlice s.cfg s.win len ⟨getAcc sd s + len, s.key, s.pos, s.rem⟩).a := by
  rw [exec_ready (i := .write sd len) nofun h] at hu
  cases hu
  simp [effect]

/-- WRITE of one byte absorbs the byte (R143). -/
theorem exec_write_one_getAcc {sd : Slot} {s u : State} (h : Ready sd s) (hu : exec (.write sd 1) s = .next u) :
    getAcc sd u = update s.cfg.mult (getAcc sd s + 1) (zext64 (byteAt s.win 0)) := by
  rw [exec_write_getAcc h hu, absorbSlice_band1, band1Word, memRead_one]
  rfl

/-- WRITE of 8 bytes absorbs them as one word (R145). -/
theorem exec_write_eight_getAcc {sd : Slot} {s u : State} (h : Ready sd s) (hu : exec (.write sd 8) s = .next u) :
    getAcc sd u = update s.cfg.mult (getAcc sd s + 8) (memRead s.win 0 8) := by
  rw [exec_write_getAcc h hu, absorbSlice_band4 (by decide) (by decide), band4Word_eight]

/-! ### A value and a slice of the same bytes (R128) -/

/-- The same word absorbed before and after a length is added: different accumulators have different images under a
bijection. -/
theorem ne_of_update_add {m len a w x y : Word} (h : m.getLsbD 0 = true) (hlen : len ≠ 0) (hx : x = update m a w)
    (hy : y = update m (a + len) w) : x ≠ y := by
  rintro rfl
  exact hlen (left_eq_add.1 ((update_bijective_acc h w).injective (hx.symm.trans hy)))

/-- Settles O31: WRITE adds its length before it absorbs the word that the fixed-width write absorbs. -/
theorem fixedWidthAndSliceAlwaysDiffer : Obligations.FixedWidthAndSliceAlwaysDiffer := by
  constructor
  · rintro s t u sd v h hodd rfl ht hu
    have hvalue := exec_wu64_getAcc h ht
    have hslice := exec_write_eight_getAcc h hu
    exact ⟨hvalue, hslice, ne_of_update_add hodd (by decide) hvalue hslice⟩
  · rintro s t u sd b h hodd rfl ht hu
    have hvalue := exec_wu64_getAcc h ((exec_wu8 sd _ s).symm.trans ht)
    have hslice := exec_write_one_getAcc h hu
    exact ⟨hvalue, hslice, ne_of_update_add hodd (by decide) hvalue hslice⟩

end Sys2Proof.Machine

/-! ## WRITE as one transition (43_slice_write.md R140 to R149, R164, R166) -/

namespace Sys2Proof.Machine

/-! ### The command: its word, its checks, and what it changes (R140) -/

/-- Settles O32: the word is read by its fields, and the checks are those of every command on a session. -/
theorem writeChecksItsSlotLikeEveryWrite : Obligations.WriteChecksItsSlotLikeEveryWrite :=
  ⟨decode_cwOf (op := .write) (by decide), fun _ sd len => exec_illegal (i := .write sd len),
    fun _ sd len hrange => exec_notLive (i := .write sd len) hrange rfl⟩

theorem exec_write_ready {sd : Slot} {s : State} (h : Ready sd s) (len : Word) :
    exec (.write sd len) s = .next (effect (.write sd len) s) :=
  exec_ready (i := .write sd len) nofun h

/-- The working values of a WRITE after the length addition (R141). -/
def lengthAdded (sd : Slot) (len : Word) (s : State) : SliceRegs := ⟨getAcc sd s + len, s.key, s.pos, s.rem⟩

theorem effect_write (sd : Slot) (len : Word) (s : State) :
    effect (.write sd len) s =
      respond .ok 0 (commitSlice sd len (absorbSlice s.cfg s.win len (lengthAdded sd len s)) s) := rfl

/-- On a slot that is ready WRITE completes, and beside the slice processor's registers it changes the accumulator alone. -/
theorem write_completes {sd : Slot} {s : State} (h : Ready sd s) (len : Word) :
    ∃ t, exec (.write sd len) s = .next t ∧ SliceWritten sd (absorbSlice s.cfg s.win len (lengthAdded sd len s)).a s t :=
  ⟨_, exec_write_ready h len, getAcc_commitSlice_same sd len _ s, rfl, rfl, rfl,
    ⟨fun _ hj => effect_getAcc_other hj s, fun _ hj => effect_isLive_other hj s⟩, effect_frame _ s⟩

/-! ### The short bands (R142 to R145, R149) -/

/-- Band 0 absorbs nothing (R142). -/
theorem absorbSlice_zero (p : Params) (m : Memory) (r : SliceRegs) : absorbSlice p m 0 r = r := rfl

/-- A slice of 1 to 8 bytes absorbs its packed word, and leaves the registers of the bulk path alone (R143 to R145). -/
theorem absorbSlice_short {len : Word} (hmin : 1 ≤ len) (hmax : len ≤ 8) (p : Params) (m : Memory) (r : SliceRegs) :
    absorbSlice p m len r = { r with a := update p.mult r.a (packedWord m len) } := by
  have h0 : len ≠ 0 := by bv_omega
  rw [absorbSlice, if_neg h0, packedWord]
  split_ifs <;> rfl

/-- So no short band changes a register but the accumulator (R161). -/
theorem absorbSlice_short_keeps {len : Word} (hmax : len ≤ 8) (p : Params) (m : Memory) (r : SliceRegs) :
    ∃ a, absorbSlice p m len r = { r with a := a } := by
  by_cases h0 : len = 0
  · exact ⟨r.a, h0 ▸ absorbSlice_zero p m r⟩
  · exact ⟨_, absorbSlice_short (by bv_omega) hmax p m r⟩

/-- A word that fits in its low `w` bits is those bits. -/
theorem setWidth_extractLsb'_of_lt {w : Nat} (hw : w ≤ 64) {x : Word} (hx : x.toNat < 2 ^ w) :
    (x.extractLsb' 0 w).setWidth 64 = x := by
  apply BitVec.eq_of_toNat_eq
  rw [BitVec.toNat_setWidth_of_le hw, BitVec.extractLsb'_toNat, Nat.shiftRight_zero, Nat.mod_eq_of_lt hx]

/-- `pack16` puts the last 2 bytes above the first 2 (R144). -/
theorem pack16_eq_or {first last : Word} (hfirst : first.toNat < 2 ^ 16) (hlast : last.toNat < 2 ^ 16) :
    pack16 first last = last <<< 16 ||| first := by
  rw [pack16, zext64, BitVec.setWidth_append_eq_shiftLeft_setWidth_or,
    setWidth_extractLsb'_of_lt (by decide) hfirst, setWidth_extractLsb'_of_lt (by decide) hlast]

theorem band1Word_eq (m : Memory) : band1Word m = (byteAt m 0).setWidth 64 := memRead_one m 0

theorem band2Word_eq_or (m : Memory) (len : Word) :
    band2Word m len = memRead m 0 2 ||| memRead m (len - 2) 2 <<< 16 :=
  (pack16_eq_or (memRead_toNat_lt m 0 (n := 2) (by decide)) (memRead_toNat_lt m _ (n := 2) (by decide))).trans
    (BitVec.or_comm ..)

theorem band4Word_eq_or (m : Memory) (len : Word) :
    band4Word m len = memRead m 0 4 ||| memRead m (len - 4) 4 <<< 32 :=
  (pack32_eq_or (memRead_toNat_lt m 0 (n := 4) (by decide)) (memRead_toNat_lt m _ (n := 4) (by decide))).trans
    (BitVec.or_comm ..)

/-- Settles O33: a slice without bytes leaves the accumulator, any other short one absorbs its packed word. -/
theorem shortSlicesHaveTheirClosedForms : Obligations.ShortSlicesHaveTheirClosedForms := by
  intro s sd len hready hmax
  obtain ⟨t, ht, hwritten⟩ := write_completes hready len
  refine ⟨t, ht, ?_, ?_⟩
  · convert hwritten using 1
    split_ifs with h0 h1 h3
    · subst h0
      exact (BitVec.add_zero _).symm
    all_goals
      rw [absorbSlice_short (by bv_omega) hmax, update, packedWord]
    · rw [if_pos h1, band1Word_eq]; rfl
    · rw [if_neg h1, if_pos h3, band2Word_eq_or]; rfl
    · rw [if_neg h1, if_neg h3, band4Word_eq_or]; rfl
  · rintro rfl
    exact exec_write_eight_getAcc hready ht

/-! ### The bulk path (R146 to R148) -/

/-- The last 9 to 16 bytes are not the loop's (R147). -/
theorem bulkIterations_of_le {rem : Word} (h : rem ≤ 16) : bulkIterations rem = 0 := by
  have hrem : rem.toNat ≤ 16 := h
  rw [bulkIterations]
  omega

/-- With more than 16 bytes left, the loop runs once more than with 8 bytes less (R147). -/
theorem bulkIterations_of_gt {rem : Word} (h : 16 < rem) : bulkIterations rem = bulkIterations (rem - 8) + 1 := by
  have hrem : 16 < rem.toNat := h
  have hsub : (rem - 8).toNat = rem.toNat - 8 := by bv_omega
  rw [bulkIterations, bulkIterations, hsub]
  omega

/-- The loop's exit test counts its iterations: `floor((rem - 9) / 8)` are left (R147). -/
theorem bulkLoop_eq_iterate (p : Params) (m : Memory) {fuel : Nat} {r : SliceRegs} (h : bulkIterations r.rem ≤ fuel) :
    bulkLoop p m fuel r = (loopBody p m)^[bulkIterations r.rem] r := by
  induction fuel generalizing r with
  | zero => rw [Nat.le_zero.1 h, bulkLoop, Function.iterate_zero_apply]
  | succ fuel ih =>
    rw [bulkLoop]
    split
    next hgt =>
      have hcount : bulkIterations r.rem = bulkIterations (loopBody p m r).rem + 1 := bulkIterations_of_gt hgt
      rw [hcount, Function.iterate_succ_apply, ih (by omega)]
    next hle => rw [bulkIterations_of_le (BitVec.not_lt.1 hle), Function.iterate_zero_apply]

/-- The bulk path from the registers `r` on: the iterations left, the front read and the tail (R146). -/
def bulkRest (p : Params) (m : Memory) (len : Word) (r : SliceRegs) : SliceRegs :=
  absorbTail p m len (ordAt p m ((loopBody p m)^[bulkIterations r.rem] r))

/-- The whole bulk path starts at the front of the slice, with the accumulator for its key (R146). -/
theorem bulk_eq_bulkRest (p : Params) (m : Memory) (len a : Word) : bulk p m len a = bulkRest p m len ⟨a, a, 0, len⟩ := by
  have hfuel : bulkIterations len ≤ len.toNat / 8 := by
    rw [bulkIterations]
    omega
  rw [bulk, bulkLoop_eq_iterate p m (r := ⟨a, a, 0, len⟩) hfuel, bulkRest]

theorem absorbSlice_long {len : Word} (h : 9 ≤ len) (p : Params) (m : Memory) (r : SliceRegs) :
    absorbSlice p m len r = bulkRest p m len ⟨r.a, r.a, 0, len⟩ := by
  have hlen : len ≠ 0 ∧ len ≠ 1 ∧ ¬ len ≤ 3 ∧ ¬ len ≤ 8 := by bv_omega
  obtain ⟨h0, h1, h3, h8⟩ := hlen
  rw [absorbSlice, if_neg h0, if_neg h1, if_neg h3, if_neg h8, bulk_eq_bulkRest]

/-- `B_i`, the 8 bytes at offset `8i` (R148). -/
def blockAt (m : Memory) (i : Nat) : Word := memRead m (BitVec.ofNat 64 (8 * i)) 8

/-- The registers of the bulk path with accumulator and key `ak`, after `n` iterations on a slice of `len` bytes (R147). -/
def bulkRegs (ak : Word × Word) (len : Word) (n : Nat) : SliceRegs :=
  ⟨ak.1, ak.2, BitVec.ofNat 64 (8 * n), len - BitVec.ofNat 64 (8 * n)⟩

/-- One iteration more is 8 bytes further on. -/
theorem bulkRegs_succ (ak : Word × Word) (len : Word) (n : Nat) :
    bulkRegs ak len (n + 1) =
      { bulkRegs ak len n with pos := (bulkRegs ak len n).pos + 8, rem := (bulkRegs ak len n).rem - 8 } := by
  have hpos : BitVec.ofNat 64 (8 * (n + 1)) = BitVec.ofNat 64 (8 * n) + 8 := BitVec.ofNat_add ..
  simp only [bulkRegs, hpos, sub_add_eq_sub_sub]

/-- The read at `pos` is the next block of the run. -/
theorem ordAt_bulkRegs (p : Params) (m : Memory) (len : Word) (ak : Word × Word) (n : Nat) :
    ordAt p m (bulkRegs (ordRun p (blockAt m) n ak) len n) = bulkRegs (ordRun p (blockAt m) (n + 1) ak) len n := rfl

/-- The loop is a run of `ORD` steps on consecutive blocks (R96, R146). -/
theorem iterate_loopBody (p : Params) (m : Memory) (len : Word) (ak : Word × Word) (n : Nat) :
    (loopBody p m)^[n] (bulkRegs ak len 0) = bulkRegs (ordRun p (blockAt m) n ak) len n := by
  induction n with
  | zero => rfl
  | succ n ih =>
    rw [Function.iterate_succ_apply', ih, loopBody, ordAt_bulkRegs, bulkRegs_succ]
    rfl

/-- R148: the bulk path in closed form, with the registers it leaves. -/
theorem absorbSlice_closed {len : Word} (h : 9 ≤ len) (p : Params) (m : Memory) (r : SliceRegs) :
    absorbSlice p m len r =
      bulkRegs (update p.mult (r.a ^^^ xorOfTerms p r.a (blockAt m) (bulkIterations len + 1)) (memRead m (len - 8) 8),
        r.a + BitVec.ofNat 64 (bulkIterations len + 1) * p.inc) len (bulkIterations len) := by
  have hstart : bulkRegs (r.a, r.a) len 0 = ⟨r.a, r.a, 0, len⟩ := by simp [bulkRegs]
  have hloop := iterate_loopBody p m len (r.a, r.a) (bulkIterations len)
  rw [hstart] at hloop
  calc absorbSlice p m len r
    _ = bulkRest p m len ⟨r.a, r.a, 0, len⟩ := absorbSlice_long h p m r
    _ = absorbTail p m len (ordAt p m (bulkRegs _ len (bulkIterations len))) :=
      congrArg (fun x => absorbTail p m len (ordAt p m x)) hloop
    _ = _ := by rw [ordAt_bulkRegs, ordRun_eq]; rfl

/-- The loop stops with 9 to 16 bytes left, `pos` and `rem` being the two parts of the slice (R147). -/
theorem bulkRegs_bounds {len : Word} (h : 9 ≤ len) {ak : Word × Word} {r : SliceRegs}
    (hr : r = bulkRegs ak len (bulkIterations len)) :
    r.pos.toNat = 8 * bulkIterations len ∧ r.pos.toNat + r.rem.toNat = len.toNat ∧
      9 ≤ r.rem.toNat ∧ r.rem.toNat ≤ 16 := by
  have hlen : 9 ≤ len.toNat := h
  have hn : bulkIterations len = (len.toNat - 9) / 8 := rfl
  have hlt := len.isLt
  have hpos : r.pos.toNat = 8 * bulkIterations len := by
    rw [hr, bulkRegs, BitVec.toNat_ofNat, Nat.mod_eq_of_lt (by omega)]
  have hrem : r.rem = len - r.pos := by rw [hr]; rfl
  have hsub : r.rem.toNat = len.toNat - r.pos.toNat := by
    rw [hrem, BitVec.toNat_sub_of_le (BitVec.le_def.2 (by omega))]
  omega

/-- Settles O34: the closed form of the bulk path is what WRITE leaves in the accumulator. -/
theorem longSlicesHaveTheirClosedForm : Obligations.LongSlicesHaveTheirClosedForm := by
  intro s sd len hready hlen
  have hcompletes := write_completes hready len
  rwa [absorbSlice_closed hlen] at hcompletes

/-- Settles O35: the short bands keep the registers, and the closed form of the bulk path gives them. -/
theorem writeLeavesTheHiddenRegisters : Obligations.WriteLeavesTheHiddenRegisters := by
  intro s sd len hready
  refine ⟨_, exec_write_ready hready len, rfl, rfl, fun hmax => ?_, fun hmin => ?_⟩ <;> rw [effect_write]
  · obtain ⟨a, hregs⟩ := absorbSlice_short_keeps hmax s.cfg s.win (lengthAdded sd len s)
    rw [hregs]
    exact ⟨rfl, rfl, rfl⟩
  · have hclosed := absorbSlice_closed hmin s.cfg s.win (lengthAdded sd len s)
    obtain ⟨hpos, hsum, hlow, hhigh⟩ := bulkRegs_bounds hmin hclosed
    exact ⟨hpos, hsum, hlow, hhigh, congrArg SliceRegs.key hclosed⟩

/-! ### The length shows, the order need not (R164, R166) -/

theorem exec_write_short_getAcc {sd : Slot} {len : Word} {s t : State} (h : Ready sd s) (hmin : 1 ≤ len) (hmax : len ≤ 8)
    (ht : exec (.write sd len) s = .next t) :
    getAcc sd t = update s.cfg.mult (getAcc sd s + len) (packedWord s.win len) := by
  rw [exec_write_getAcc h ht, absorbSlice_short hmin hmax]

/-- The same word absorbed after two different lengths: UPDATE is a bijection of the accumulator that they were added to
(R164). -/
theorem update_add_ne {m a l1 l2 w : Word} (h : m.getLsbD 0 = true) (hl : l1 ≠ l2) :
    update m (a + l1) w ≠ update m (a + l2) w := fun heq =>
  hl ((BitVec.add_right_inj a).1 ((update_bijective_acc h w).injective heq))

/-- Settles O36: UPDATE with one word is a bijection of the accumulator, which the length has been added to. -/
theorem sliceLengthAlwaysShows : Obligations.SliceLengthAlwaysShows := by
  refine ⟨fun s t u sd l1 l2 m1 m2 h hodd hmin1 hmax1 hmin2 hmax2 hl hword ht hu => ?_,
    fun s t u sd h hodd ht hu => ?_, by decide⟩
  · have hacc1 := exec_write_short_getAcc (s := withWindow m1 s) h hmin1 hmax1 ht
    have hacc2 := exec_write_short_getAcc (s := withWindow m2 s) h hmin2 hmax2 hu
    have hpacked : packedWord (withWindow m1 s).win l1 = packedWord (withWindow m2 s).win l2 := hword
    rw [hacc1, hacc2, hpacked]
    exact update_add_ne hodd hl
  · have hone := exec_write_short_getAcc (s := withWindow [] s) h (by decide) (by decide) ht
    have htwo := exec_write_short_getAcc (s := withWindow [] s) h (by decide) (by decide) hu
    obtain ⟨hzero1, hzero2⟩ : packedWord [] 1 = 0 ∧ packedWord [] 2 = 0 := by decide
    rw [withWindow_win, hzero1] at hone
    rw [withWindow_win, hzero2] at htwo
    have hne : getAcc sd t ≠ getAcc sd u := by
      rw [hone, htwo]
      exact update_add_ne hodd (by decide)
    rw [update_zero_word] at hone htwo
    exact ⟨hone, htwo, hne, (mix_bijective hodd).injective.ne hne⟩

/-- Words whose XOR is that of their keys are the same word under the keys. -/
theorem xor_key_eq {b0 b1 k k' : Word} (h : b0 ^^^ b1 = k ^^^ k') : b0 ^^^ k = b1 ^^^ k' :=
  calc b0 ^^^ k
    _ = b0 ^^^ b1 ^^^ (b1 ^^^ k) := by rw [BitVec.xor_assoc, ← BitVec.xor_assoc b1, BitVec.xor_self, BitVec.zero_xor]
    _ = k ^^^ k ^^^ (b1 ^^^ k') := by rw [h]; ac_rfl
    _ = b1 ^^^ k' := by rw [BitVec.xor_self, BitVec.zero_xor]

/-- Two `ORD` steps whose words are the same under their keys cancel. -/
theorem ordRun_two_cancel {p : Params} {b : Nat → Word} {k : Word} (h : b 0 ^^^ k = b 1 ^^^ (k + p.inc)) (a : Word) :
    ordRun p b 2 (a, k) = (a, k + p.inc + p.inc) := by
  simp [ordRun, ord, h]

/-- Settles O37: in either order the two steps cancel. -/
theorem exchangedBlocksCanCollide : Obligations.ExchangedBlocksCanCollide := by
  intro p a k b0 b1 h
  rw [ordRun_two_cancel (xor_key_eq h), ordRun_two_cancel (xor_key_eq ((BitVec.xor_comm b1 b0).trans h))]

end Sys2Proof.Machine

/-! ## The slice processor: its micro-steps, and their agreement with the atomic WRITE (43_slice_write.md R150 to R163) -/

namespace Sys2Proof.Machine

/-! ### What each micro-step leaves (R152 to R161) -/

/-- The state after the enabled micro-step, its reads lying inside the window. -/
def microNext (s : State) : State :=
  match s.ph with
  | .idle => s
  | .lenadd => advance (working s + s.len) .dispatch s
  | .dispatch => { s with ph := bandPhase s.len }
  | .b1 => advance (update s.cfg.mult (working s) (band1Word s.win)) .done s
  | .b2 => advance (update s.cfg.mult (working s) (band2Word s.win s.len)) .done s
  | .b4 => advance (update s.cfg.mult (working s) (band4Word s.win s.len)) .done s
  | .seed => { s with key := working s, pos := 0, rem := s.len, ph := if 16 < s.len then .loop else .front }
  | .loop =>
    advance (working s ^^^ mix s.cfg.mult (memRead s.win s.pos 8 ^^^ s.key)) (if 16 < s.rem - 8 then .loop else .front)
      { s with key := s.key + s.cfg.inc, pos := s.pos + 8, rem := s.rem - 8 }
  | .front =>
    advance (working s ^^^ mix s.cfg.mult (memRead s.win s.pos 8 ^^^ s.key)) .tail { s with key := s.key + s.cfg.inc }
  | .tail => advance (update s.cfg.mult (working s) (memRead s.win (s.len - 8) 8)) .done s
  | .done => respond .ok 0 { s with ph := .idle }

/-- A micro-step that answers a next state answers that one. -/
theorem microStep_next {s t : State} (h : microStep s = .next t) : t = microNext s := by
  cases hp : s.ph <;> simp only [microStep, microNext, hp] at h ⊢
  case idle | lenadd | dispatch | seed | done => cases h; rfl
  case b1 | loop | front | tail => cases (withRead_next h).2; rfl
  case b2 | b4 => cases (withRead_next (withRead_next h).2).2; rfl

/-- A micro-step whose reads lie inside the window answers. -/
theorem microStep_within {s : State} (h : ∀ r ∈ windowReads s, r.within s.len = true) :
    microStep s = .next (microNext s) := by
  obtain ⟨t, ht⟩ := microStep_answers h
  rw [ht, microStep_next ht]

/-- The phase that `DISPATCH` selects, each band with both its bounds (R153). -/
theorem bandPhase_eq (len : Word) :
    bandPhase len = if len = 0 then .done else if len = 1 then .b1 else if 2 ≤ len ∧ len ≤ 3 then .b2
      else if 4 ≤ len ∧ len ≤ 8 then .b4 else .seed := by
  have hb2 (h0 : len ≠ 0) (h1 : len ≠ 1) : len ≤ 3 ↔ 2 ≤ len ∧ len ≤ 3 := ⟨fun h => ⟨by bv_omega, h⟩, And.right⟩
  have hb4 (h3 : ¬ len ≤ 3) : len ≤ 8 ↔ 4 ≤ len ∧ len ≤ 8 := ⟨fun h => ⟨by bv_omega, h⟩, And.right⟩
  exact ite_congr rfl (fun _ => rfl) fun h0 => ite_congr rfl (fun _ => rfl) fun h1 =>
    ite_congr (propext (hb2 h0 h1)) (fun _ => rfl) fun h23 =>
      ite_congr (propext (hb4 fun h3 => h23 ((hb2 h0 h1).1 h3))) (fun _ => rfl) fun _ => rfl

theorem microNext_ph (s : State) : (microNext s).ph = phaseAfter s := by
  cases hp : s.ph <;> simp only [microNext, phaseAfter, hp]
  case dispatch => exact bandPhase_eq s.len
  all_goals rfl

/-- The bounds with which `LOOP`, `FRONT` and `TAIL` are entered (R158 to R160). -/
theorem bulk_bounds {s : State} (hi : Inv s) :
    (s.ph = .loop → 16 < s.rem) ∧ (s.ph = .front → 9 ≤ s.rem ∧ s.rem ≤ 16) ∧
      (s.ph = .tail → s.len - 8 = s.pos + s.rem - 8) := by
  refine ⟨fun hp => ((phaseBounds_loop hp).1 hi.bounds).2, fun hp => ((phaseBounds_front hp).1 hi.bounds).2, fun hp => ?_⟩
  obtain ⟨hbulk, -⟩ := (phaseBounds_tail hp).1 hi.bounds
  rw [bulkPosition_rem hbulk, add_sub_cancel]

/-- Settles O39: the reads lie inside the window, so that each micro-step leaves `microNext`. -/
theorem microStepsHaveTheirEffects : Obligations.MicroStepsHaveTheirEffects := by
  refine ⟨fun s => bulk_bounds, fun s hr => ?_⟩
  simp only [microStep_within fun r hmem => (within_iff _ r).2 (hr r hmem), Host.Outcome.next.injEq]
  refine ⟨fun hp => ?_, fun hp => ?_, fun hp => ?_, fun hp => ?_, fun hp => ?_, fun hp => ?_, fun hp => ?_, fun hp => ?_,
    fun hp => ?_, fun hp => ?_⟩ <;> simp only [microNext, hp]
  case refine_2 => rw [bandPhase_eq]
  case refine_5 => rw [band4Word, pack32, zext64_word]; rfl
  all_goals rfl

/-! ### A step of the block, idle or busy (R150, R151, R162, R204, R215) -/

/-- A busy block to which nothing or a command is presented makes its micro-step, and the command waits (R150, R215). -/
theorem step_busy_waiting {s : State} (hp : s.ph ≠ .idle) (htick : ∀ rest, s.inputs ≠ .tick :: rest)
    (hreset : ∀ rest, s.inputs ≠ .reset :: rest) : step s = microStep s := by
  rw [step_busy hp, busyStep]
  split
  next => rfl
  next rest h => exact absurd h (htick rest)
  next rest h => exact absurd h (hreset rest)
  next => rfl
  next => rfl

theorem step_busy_tick {s : State} {rest : List HostInput} (hp : s.ph ≠ .idle) (h : s.inputs = .tick :: rest) :
    step s = microStep { s with inputs := rest } := by
  rw [step_busy hp, busyStep, h]

theorem step_idle_nothing {s : State} (hp : s.ph = .idle) (h : s.inputs = []) : step s = .next s := by
  rw [step_idle hp, idleStep, h]

theorem step_idle_tick {s : State} {rest : List HostInput} (hp : s.ph = .idle) (h : s.inputs = .tick :: rest) :
    step s = .next { s with inputs := rest } := by
  rw [step_idle hp, idleStep, h]

/-- Settles O54: one clause for each move that the host can present. -/
theorem busyBlocksAcceptNoCommandAndIdleBlocksWait : Obligations.BusyBlocksAcceptNoCommandAndIdleBlocksWait := by
  refine ⟨fun s c rest hp hins => ?_, fun s hp hins => step_busy_waiting hp (by simp [hins]) (by simp [hins]),
    fun s rest => step_busy_tick, fun s => step_idle_nothing, fun s rest => step_idle_tick⟩
  have hstep : step s = microStep s := by
    rcases hins with hins | hins <;> exact step_busy_waiting hp (by simp [hins]) (by simp [hins])
  exact ⟨hstep, fun t ht => (microStep_frame (hstep.symm.trans ht)).inputs⟩

/-- A word that decodes to a WRITE names a slot of the block, and the length is its operand's low word (R60, R140). -/
theorem decode_write {nsess : Nat} {w : Words} {sd : Slot} {len : Word} (h : decode nsess w = .ok (.write sd len)) :
    Slot.inRange nsess sd = true ∧ len = w.opnd.extractLsb' 0 64 := by
  obtain ⟨op, -, ⟨hdest, -⟩, hassemble⟩ := decode_eq_ok_iff.1 h
  have hop := (assemble_opcode ..).symm.trans (congrArg Instr.opcode hassemble).symm
  cases hop
  cases hassemble
  exact ⟨slot_inRange_iff.2 hdest, rfl⟩

theorem startCommand_write {c : Command} {s : State} {sd : Slot} {len : Word}
    (h : decode s.cfg.nsess c.words = .ok (.write sd len)) :
    startCommand c s = acceptWrite sd len (openCommand c s) := by simp only [startCommand, h]

theorem startCommand_undecoded {c : Command} {s : State} (h : ∀ i, decode s.cfg.nsess c.words ≠ .ok i) :
    startCommand c s = raise .illegalCommand (openCommand c s) := by
  rcases startCommand_cases c s with ⟨-, e⟩ | ⟨sd, len, hwrite, -⟩ | ⟨i, hi, -⟩
  · exact e
  · exact absurd hwrite (h _)
  · exact absurd hi (h i)

/-- The state after the acceptance of a WRITE (R151). -/
def accepted (sd : Slot) (len : Word) (s : State) : State := { s with cur := sd, len := len, ph := .lenadd }

theorem acceptWrite_ready {sd : Slot} {s : State} (h : Ready sd s) (len : Word) :
    acceptWrite sd len s = .next (accepted sd len s) := onSession_ready h _

/-- A WRITE on a live slot is accepted (R151). -/
theorem startCommand_live {c : Command} {s : State} {sd : Slot} {len : Word}
    (h : decode s.cfg.nsess c.words = .ok (.write sd len)) (hl : isLive sd s = true) :
    startCommand c s = .next (accepted sd len (openCommand c s)) := by
  obtain ⟨hrange, -⟩ := decode_write h
  exact (startCommand_write h).trans (acceptWrite_ready (s := openCommand c s) ⟨hrange, hl⟩ len)

/-- A WRITE on a slot without a session does not start the processor (R151, R192). -/
theorem startCommand_dead {c : Command} {s : State} {sd : Slot} {len : Word}
    (h : decode s.cfg.nsess c.words = .ok (.write sd len)) (hl : isLive sd s = false) :
    startCommand c s = raise .notLive (openCommand c s) := by
  obtain ⟨hrange, -⟩ := decode_write h
  exact (startCommand_write h).trans (onSession_dead (s := openCommand c s) hrange hl _)

/-- An idle block stays idle when a command is presented for micro-steps, unless the command is a legal WRITE on a live slot:
the processor then starts, and no response is there (R151). -/
theorem startCommand_ph {c : Command} {s t : State} (hp : s.ph = .idle) (h : startCommand c s = .next t) :
    t.ph = .idle ∨ (t.ph = .lenadd ∧ t.rspValid = false ∧
      ∃ sd len, decode s.cfg.nsess c.words = .ok (.write sd len) ∧ isLive sd s = true) := by
  have hraise {st : Status} {u : State} (hu : u.ph = .idle) (e : raise st u = .next t) : t.ph = .idle := by
    rw [raise_next.1 e, respond_ph, hu]
  rcases startCommand_cases c s with ⟨-, e⟩ | ⟨sd, len, hdec, e⟩ | ⟨i, -, -, e⟩ <;> rw [e] at h
  · exact .inl (hraise (u := openCommand c s) hp h)
  · rcases acceptWrite_cases sd len (openCommand c s) with ⟨-, e⟩ | ⟨-, -, e⟩ | ⟨⟨-, hlive⟩, e⟩ <;> rw [e] at h
    · exact .inl (hraise (u := openCommand c s) hp h)
    · exact .inl (hraise (u := openCommand c s) hp h)
    · cases h
      exact .inr ⟨rfl, rfl, sd, len, hdec, hlive⟩
  · exact .inl ((exec_frame h).ph.trans hp)

/-- Settles O38: an idle block decodes the command presented, and the checks of the WRITE decide. -/
theorem acceptanceStartsTheSliceProcessor : Obligations.AcceptanceStartsTheSliceProcessor := by
  intro s c rest hp hins
  rw [step_stepped hp hins]
  refine ⟨fun sd len hdec hlive => ⟨(decode_write hdec).2, ?_⟩, fun sd len hdec hdead => ?_, fun hnone => ?_,
    fun t ht hvalid => ?_⟩
  · exact startCommand_live (s := { s with inputs := rest }) hdec hlive
  · exact startCommand_dead (s := { s with inputs := rest }) hdec hdead
  · exact startCommand_undecoded (s := { s with inputs := rest }) hnone
  · rcases startCommand_ph (s := { s with inputs := rest }) hp ht with hidle | ⟨-, hnone, -⟩
    · exact hidle
    · simp [hnone] at hvalid

theorem microStep_ph {s t : State} (h : microStep s = .next t) : t.ph = phaseAfter s := by
  rw [microStep_next h, microNext_ph]

theorem step_busy_ph {s t : State} (hp : s.ph ≠ .idle) (hreset : ∀ rest, s.inputs ≠ .reset :: rest)
    (h : step s = .next t) : t.ph = phaseAfter s := by
  by_cases htick : ∃ rest, s.inputs = .tick :: rest
  · obtain ⟨rest, hins⟩ := htick
    exact microStep_ph (s := { s with inputs := rest }) ((step_busy_tick hp hins).symm.trans h)
  · exact microStep_ph ((step_busy_waiting hp (not_exists.1 htick) hreset).symm.trans h)

theorem transact_ph {c : Command} {s t : State} (h : transact c s = .next t) : t.ph = s.ph := by
  rcases transact_cases c s with ⟨-, e⟩ | ⟨i, -, e⟩ <;> rw [e] at h
  · rw [raise_next.1 h, respond_ph, openCommand_ph]
  · exact (exec_frame h).ph

/-- Of the host's moves only a command presented for micro-steps takes an idle block out of `IDLE`. -/
theorem step_idle_ph {s t : State} (hp : s.ph = .idle) (h : step s = .next t) :
    t.ph = .idle ∨ (t.ph = .lenadd ∧ ∃ c rest sd len, s.inputs = .stepped c :: rest ∧
      decode s.cfg.nsess c.words = .ok (.write sd len) ∧ isLive sd s = true) := by
  rw [step_idle hp, idleStep] at h
  split at h
  next => cases h; exact .inl hp
  next => cases h; exact .inl hp
  next => cases h; exact .inl rfl
  next => exact .inl ((transact_ph h).trans hp)
  next c rest hins =>
    rcases startCommand_ph (s := { s with inputs := rest }) hp h with hidle | ⟨hlenadd, -, sd, len, hdec, hlive⟩
    · exact .inl hidle
    · exact .inr ⟨hlenadd, c, rest, sd, len, hins, hdec, hlive⟩

/-- Settles O40: a micro-step leaves the phase that `phaseAfter` names, and an idle block is left by acceptance alone. -/
theorem noOtherPhaseTransitionsExist : Obligations.NoOtherPhaseTransitionsExist :=
  ⟨fun _ _ => microStep_ph, fun _ _ => step_busy_ph, fun _ _ => step_idle_ph,
    fun _ _ hins => ⟨_, step_reset hins, rfl⟩⟩

/-! ### Where a WRITE in progress ends (R163) -/

/-- The working values of the WRITE in progress, as the state holds them (R25, R26). -/
def sliceRegs (s : State) : SliceRegs := ⟨working s, s.key, s.pos, s.rem⟩

@[simp] theorem sliceRegs_a (s : State) : (sliceRegs s).a = working s := rfl

/-- The working values that the enabled micro-step leaves, in the terms of the atomic WRITE: `LOOP` is one iteration of its
loop, `FRONT` the `ORD` step after the loop, `TAIL` its last `UPDATE` (R146, R152 to R160). -/
def sliceRegsAfter (s : State) : SliceRegs :=
  match s.ph with
  | .idle | .dispatch | .done => sliceRegs s
  | .lenadd => { sliceRegs s with a := working s + s.len }
  | .b1 => { sliceRegs s with a := update s.cfg.mult (working s) (band1Word s.win) }
  | .b2 => { sliceRegs s with a := update s.cfg.mult (working s) (band2Word s.win s.len) }
  | .b4 => { sliceRegs s with a := update s.cfg.mult (working s) (band4Word s.win s.len) }
  | .seed => ⟨working s, working s, 0, s.len⟩
  | .loop => loopBody s.cfg s.win (sliceRegs s)
  | .front => ordAt s.cfg s.win (sliceRegs s)
  | .tail => absorbTail s.cfg s.win s.len (sliceRegs s)

/-- The WRITE in progress completes with the working values `r` (R161). -/
def finishSlice (s : State) (r : SliceRegs) : State := respond .ok 0 { commitSlice s.cur s.len r s with ph := .idle }

/-- How many micro-steps are left until the slice processor is idle (R163). -/
def stepsLeft (s : State) : Nat :=
  match s.ph with
  | .idle => 0
  | .lenadd => microSteps s.len
  | .dispatch => microSteps s.len - 1
  | .seed => bulkIterations s.len + 4
  | .loop | .front => bulkIterations s.rem + 3
  | .b1 | .b2 | .b4 | .tail => 2
  | .done => 1

/-- The state in which the micro-steps that are left end: the WRITE completes with what the atomic WRITE makes of the working
values from this phase on. -/
def sliceEnd (s : State) : State :=
  match s.ph with
  | .idle => s
  | .lenadd | .dispatch => finishSlice s (absorbSlice s.cfg s.win s.len (sliceRegsAfter s))
  | .seed => finishSlice s (bulkRest s.cfg s.win s.len (sliceRegsAfter s))
  | .loop | .front => finishSlice s (bulkRest s.cfg s.win s.len (sliceRegs s))
  | .b1 | .b2 | .b4 | .tail | .done => finishSlice s (sliceRegsAfter s)

@[simp] theorem advance_ph (v : Word) (p : Phase) (s : State) : (advance v p s).ph = p := rfl
@[simp] theorem advance_len (v : Word) (p : Phase) (s : State) : (advance v p s).len = s.len := rfl
@[simp] theorem advance_rem (v : Word) (p : Phase) (s : State) : (advance v p s).rem = s.rem := rfl

@[simp] theorem sliceRegs_advance (v : Word) (p : Phase) (s : State) :
    sliceRegs (advance v p s) = { sliceRegs s with a := v } := by
  simp [sliceRegs, working, advance]

/-- How a WRITE completes does not depend on the working values that it replaces. -/
@[simp] theorem finishSlice_advance (v : Word) (p : Phase) (s : State) (r : SliceRegs) :
    finishSlice (advance v p s) r = finishSlice s r := by
  simp [finishSlice, advance, commitSlice, setAcc]

/-- Completing with the working values that the state holds is `DONE` (R161). -/
theorem finishSlice_sliceRegs (s : State) : finishSlice s (sliceRegs s) = respond .ok 0 { s with ph := .idle } := by
  simp [finishSlice, commitSlice, sliceRegs, working, setAcc, getAcc]

theorem sliceEnd_idle {s : State} (h : s.ph = .idle) : sliceEnd s = s := by simp only [sliceEnd, h]

/-- `SEED` and `LOOP` go on to `LOOP` or `FRONT`, from which the same is left to do. -/
theorem bulk_stepsLeft {s : State} {c : Prop} [Decidable c] (h : s.ph = if c then .loop else .front) :
    stepsLeft s = bulkIterations s.rem + 3 := by
  split_ifs at h <;> simp only [stepsLeft, h]

theorem bulk_sliceEnd {s : State} {c : Prop} [Decidable c] (h : s.ph = if c then .loop else .front) :
    sliceEnd s = finishSlice s (bulkRest s.cfg s.win s.len (sliceRegs s)) := by
  split_ifs at h <;> simp only [sliceEnd, h]

theorem bulkRest_of_gt {r : SliceRegs} (h : 16 < r.rem) (p : Params) (m : Memory) (len : Word) :
    bulkRest p m len r = bulkRest p m len (loopBody p m r) := by
  have hcount : bulkIterations r.rem = bulkIterations (loopBody p m r).rem + 1 := bulkIterations_of_gt h
  rw [bulkRest, hcount, Function.iterate_succ_apply, bulkRest]

theorem bulkRest_of_le {r : SliceRegs} (h : r.rem ≤ 16) (p : Params) (m : Memory) (len : Word) :
    bulkRest p m len r = absorbTail p m len (ordAt p m r) := by
  rw [bulkRest, bulkIterations_of_le h, Function.iterate_zero_apply]

/-- `DISPATCH` selects the phase that does what the atomic WRITE does in the band (R141, R153). -/
theorem dispatch_sliceEnd (s : State) :
    sliceEnd { s with ph := bandPhase s.len } = finishSlice s (absorbSlice s.cfg s.win s.len (sliceRegs s)) := by
  unfold bandPhase absorbSlice
  split_ifs
  case neg => rw [bulk_eq_bulkRest]; rfl
  all_goals rfl

theorem dispatch_stepsLeft (s : State) : stepsLeft { s with ph := bandPhase s.len } + 1 = microSteps s.len - 1 := by
  by_cases h0 : s.len = 0
  · simp [bandPhase, microSteps, stepsLeft, h0]
  · by_cases h8 : s.len ≤ 8
    · have hband : stepsLeft { s with ph := bandPhase s.len } = 2 := by
        simp only [bandPhase, h0, h8, if_true, if_false]
        split_ifs <;> rfl
      rw [hband, microSteps, if_neg h0, if_pos h8]
    · have hlen : s.len ≠ 1 ∧ ¬ s.len ≤ 3 := by bv_omega
      obtain ⟨h1, h3⟩ := hlen
      rw [bandPhase, if_neg h0, if_neg h1, if_neg h3, if_neg h8, microSteps, if_neg h0, if_neg h8]
      rfl

theorem one_lt_microSteps (len : Word) : 1 < microSteps len := by
  unfold microSteps
  split_ifs <;> omega

theorem microNext_frame (s : State) : MicroFrame s (microNext s) := by
  cases hp : s.ph <;> simp only [microNext, hp] <;> exact ⟨rfl, rfl, rfl, rfl, rfl, rfl, rfl⟩

theorem finishSlice_microNext (s : State) (r : SliceRegs) : finishSlice (microNext s) r = finishSlice s r := by
  cases hp : s.ph <;> simp only [microNext, hp, finishSlice_advance] <;> rfl

theorem sliceRegs_microNext (s : State) : sliceRegs (microNext s) = sliceRegsAfter s := by
  cases hp : s.ph <;> simp only [microNext, sliceRegsAfter, hp, sliceRegs_advance] <;> rfl

/-- A micro-step does not change where the WRITE in progress ends. -/
theorem microNext_sliceEnd {s : State} (hb : PhaseBounds s) : sliceEnd (microNext s) = sliceEnd s := by
  have hph := microNext_ph s
  obtain ⟨hcfg, -, hlen, -, hwin, -, -⟩ := microNext_frame s
  cases hp : s.ph <;> simp only [phaseAfter, hp] at hph
  case idle => simp only [microNext, hp]
  case lenadd => simp only [sliceEnd, hph, hp, finishSlice_microNext, sliceRegsAfter, sliceRegs_microNext, hcfg, hwin, hlen]
  case dispatch =>
    have hnext : microNext s = { s with ph := bandPhase s.len } := by simp only [microNext, hp]
    rw [hnext, dispatch_sliceEnd]
    simp only [sliceEnd, sliceRegsAfter, hp]
  case seed =>
    rw [bulk_sliceEnd hph, finishSlice_microNext, sliceRegs_microNext, hcfg, hwin, hlen]
    simp only [sliceEnd, hp]
  case loop =>
    obtain ⟨-, hrem⟩ := (phaseBounds_loop hp).1 hb
    have hmore : 16 < (sliceRegs s).rem := hrem
    rw [bulk_sliceEnd hph, finishSlice_microNext, sliceRegs_microNext, hcfg, hwin, hlen]
    simp only [sliceEnd, sliceRegsAfter, hp, bulkRest_of_gt hmore]
  case front =>
    obtain ⟨-, -, hrem⟩ := (phaseBounds_front hp).1 hb
    have hlast : (sliceRegs s).rem ≤ 16 := hrem
    simp only [sliceEnd, hph, hp, finishSlice_microNext, sliceRegsAfter, sliceRegs_microNext, hcfg, hwin, hlen,
      bulkRest_of_le hlast]
  case b1 | b2 | b4 | tail => simp only [sliceEnd, hph, hp, finishSlice_microNext, sliceRegsAfter, sliceRegs_microNext]
  case done =>
    rw [sliceEnd_idle hph]
    simp only [microNext, sliceEnd, sliceRegsAfter, hp, finishSlice_sliceRegs]

/-- Each micro-step of a busy block is one of those that were left. -/
theorem microNext_stepsLeft {s : State} (hb : PhaseBounds s) (hbusy : s.ph ≠ .idle) :
    stepsLeft (microNext s) + 1 = stepsLeft s := by
  have hph := microNext_ph s
  cases hp : s.ph <;> simp only [phaseAfter, hp] at hph
  case idle => exact absurd hp hbusy
  case lenadd => simp [microNext, stepsLeft, hp, Nat.sub_add_cancel (one_lt_microSteps s.len).le]
  case dispatch =>
    simp only [microNext, hp, dispatch_stepsLeft s]
    simp only [stepsLeft, hp]
  case b1 | b2 | b4 | tail | done => simp [microNext, stepsLeft, hp]
  case seed =>
    rw [bulk_stepsLeft hph]
    simp [microNext, stepsLeft, hp]
  case loop =>
    obtain ⟨-, hrem⟩ := (phaseBounds_loop hp).1 hb
    rw [bulk_stepsLeft hph]
    simp [microNext, stepsLeft, hp, bulkIterations_of_gt hrem]
  case front =>
    obtain ⟨-, -, hrem⟩ := (phaseBounds_front hp).1 hb
    simp [microNext, stepsLeft, hp, bulkIterations_of_le hrem]

/-- The slice processor is idle when no micro-step is left, and not before. -/
theorem stepsLeft_eq_zero_iff {s : State} : stepsLeft s = 0 ↔ s.ph = .idle := by
  have hmicro := one_lt_microSteps s.len
  cases hp : s.ph <;> simp only [stepsLeft, hp, reduceCtorEq, iff_false]
  all_goals omega

/-! ### Runs of micro-steps (R163) -/

theorem microRun_succ {s t : State} (h : microStep s = .next t) (k : Nat) : microRun (k + 1) s = microRun k t := by
  simp only [microRun, h]

/-- As many micro-steps as are left are made without a fault, each is one less, and none changes where the WRITE ends. -/
theorem microRun_answers {s : State} {k : Nat} (hb : PhaseBounds s) (hk : k ≤ stepsLeft s) :
    ∃ u, microRun k s = .next u ∧ stepsLeft u + k = stepsLeft s ∧ sliceEnd u = sliceEnd s := by
  induction k generalizing s with
  | zero => exact ⟨s, rfl, rfl, rfl⟩
  | succ k ih =>
    have hbusy : s.ph ≠ .idle := fun hp => by
      rw [stepsLeft_eq_zero_iff.2 hp] at hk
      omega
    have hstep := microStep_within (windowReads_within hb)
    have hleft := microNext_stepsLeft hb hbusy
    obtain ⟨u, hrun, hcount, hend⟩ := ih (microStep_keeps_bounds hb hstep) (by omega)
    exact ⟨u, (microRun_succ hstep k).trans hrun, by omega, hend.trans (microNext_sliceEnd hb)⟩

/-- When all are made, the WRITE is where it ends. -/
theorem microRun_stepsLeft {s : State} (hb : PhaseBounds s) : microRun (stepsLeft s) s = .next (sliceEnd s) := by
  obtain ⟨u, hrun, hcount, hend⟩ := microRun_answers hb le_rfl
  have hidle : u.ph = .idle := stepsLeft_eq_zero_iff.1 (by omega)
  rw [hrun, ← hend, sliceEnd_idle hidle]

theorem microRun_busy {s : State} {k : Nat} (hb : PhaseBounds s) (hk : k < stepsLeft s) :
    ∃ u, microRun k s = .next u ∧ u.ph ≠ .idle := by
  obtain ⟨u, hrun, hcount, -⟩ := microRun_answers hb hk.le
  exact ⟨u, hrun, fun hidle => by
    rw [stepsLeft_eq_zero_iff.2 hidle] at hcount
    omega⟩

/-- `LENADD` assumes nothing of the length. -/
theorem accepted_bounds (sd : Slot) (len : Word) (s : State) : PhaseBounds (accepted sd len s) := trivial

/-- A WRITE just accepted ends where the atomic WRITE does. -/
theorem sliceEnd_accepted {s : State} (hp : s.ph = .idle) (sd : Slot) (len : Word) :
    sliceEnd (accepted sd len s) = effect (.write sd len) s := by
  have hself : { s with ph := .idle } = s := by rw [← hp]
  calc sliceEnd (accepted sd len s)
    _ = effect (.write sd len) { s with ph := .idle } := rfl
    _ = effect (.write sd len) s := by rw [hself]

/-! ### What a WRITE in progress depends on (R163) -/

/-- Two blocks with the same parameters and window have the same WRITE in progress on their slots `sd` and `sd'`. The registers
that `SEED` sets agree from there on. -/
structure SameWrite (sd sd' : Slot) (s s' : State) : Prop where
  cfg : s'.cfg = s.cfg
  win : s'.win = s.win
  len : s'.len = s.len
  ph : s'.ph = s.ph
  slot : s.cur = sd
  slot' : s'.cur = sd'
  acc : working s' = working s
  regs : s.ph = .loop ∨ s.ph = .front → sliceRegs s' = sliceRegs s

/-- `LOOP` and `FRONT` are entered from `SEED` and `LOOP` alone (R157, R158). -/
theorem bulk_entered {s : State} (h : phaseAfter s = .loop ∨ phaseAfter s = .front) : s.ph = .seed ∨ s.ph = .loop := by
  cases hp : s.ph <;> simp only [phaseAfter, hp] at h
  case seed => exact .inl rfl
  case loop => exact .inr rfl
  case dispatch => split_ifs at h <;> simp at h
  all_goals simp at h

section
variable {sd sd' : Slot} {s s' : State} (h : SameWrite sd sd' s s')
include h

theorem SameWrite.phaseAfter_eq : phaseAfter s' = phaseAfter s := by
  obtain ⟨-, -, hlen, hph, -, -, -, hregs⟩ := h
  cases hp : s.ph <;> simp only [phaseAfter, hph.trans hp, hp, hlen]
  case loop =>
    have hrem : s'.rem = s.rem := congrArg SliceRegs.rem (hregs (.inl hp))
    rw [hrem]

theorem SameWrite.accAfter_eq : (sliceRegsAfter s').a = (sliceRegsAfter s).a := by
  obtain ⟨hcfg, hwin, hlen, hph, -, -, hacc, hregs⟩ := h
  cases hp : s.ph <;>
    simp only [sliceRegsAfter, absorbTail, sliceRegs_a, hph.trans hp, hp, hcfg, hwin, hlen, hacc]
  case loop => rw [hregs (.inl hp)]
  case front => rw [hregs (.inr hp)]

theorem SameWrite.regsAfter_eq (hp : s.ph = .seed ∨ s.ph = .loop) : sliceRegsAfter s' = sliceRegsAfter s := by
  obtain ⟨hcfg, hwin, hlen, hph, -, -, hacc, hregs⟩ := h
  rcases hp with hp | hp <;> simp only [sliceRegsAfter, hph.trans hp, hp, hcfg, hwin, hlen, hacc]
  rw [hregs (.inl hp)]

/-- A micro-step keeps the two blocks alike. -/
theorem microNext_sameWrite : SameWrite sd sd' (microNext s) (microNext s') := by
  obtain ⟨hcfg, -, hlen, hcur, hwin, -, -⟩ := microNext_frame s
  obtain ⟨hcfg', -, hlen', hcur', hwin', -, -⟩ := microNext_frame s'
  refine ⟨?_, ?_, ?_, ?_, hcur.trans h.slot, hcur'.trans h.slot', ?_, fun hbulk => ?_⟩
  · rw [hcfg', h.cfg, hcfg]
  · rw [hwin', h.win, hwin]
  · rw [hlen', h.len, hlen]
  · rw [microNext_ph, microNext_ph, h.phaseAfter_eq]
  · rw [← sliceRegs_a, ← sliceRegs_a, sliceRegs_microNext, sliceRegs_microNext, h.accAfter_eq]
  · rw [microNext_ph] at hbulk
    rw [sliceRegs_microNext, sliceRegs_microNext, h.regsAfter_eq (bulk_entered hbulk)]

end

/-- A run of micro-steps that answers made each of them. -/
theorem microRun_eq_iterate {k : Nat} {s u : State} (h : microRun k s = .next u) : u = microNext^[k] s := by
  induction k generalizing s with
  | zero => cases h; rfl
  | succ k ih =>
    rw [microRun] at h
    split at h
    next t ht => rw [Function.iterate_succ_apply, ← microStep_next ht]; exact ih h
    next => cases h
    next => cases h

theorem iterate_sameWrite {sd sd' : Slot} {s s' : State} (h : SameWrite sd sd' s s') (k : Nat) :
    SameWrite sd sd' (microNext^[k] s) (microNext^[k] s') := by
  induction k with
  | zero => exact h
  | succ k ih =>
    rw [Function.iterate_succ_apply', Function.iterate_succ_apply']
    exact microNext_sameWrite ih

/-- Two blocks with the same parameters, window and accumulator that accept a WRITE of the same length. -/
theorem accepted_sameWrite {sd sd' : Slot} {s s' : State} (hcfg : s'.cfg = s.cfg) (hwin : s'.win = s.win)
    (hacc : getAcc sd' s' = getAcc sd s) (len : Word) :
    SameWrite sd sd' (accepted sd len s) (accepted sd' len s') :=
  ⟨hcfg, hwin, rfl, rfl, rfl, rfl, hacc, nofun⟩

/-- Settles O41: the micro-steps count down to the idle processor, and on the way neither change where the WRITE ends nor tell
apart two blocks with the same WRITE in progress. -/
theorem microStepsAgreeWithTheAtomicWrite : Obligations.MicroStepsAgreeWithTheAtomicWrite := by
  constructor
  · intro s sd len hp hready
    have hb := accepted_bounds sd len s
    refine ⟨_, acceptWrite_ready hready len, ?_, fun k => microRun_busy hb⟩
    rw [exec_write_ready hready, ← sliceEnd_accepted hp]
    exact microRun_stepsLeft hb
  · intro s s' a a' sd sd' len k hready hready' hcfg hwin hacc ha ha' hk
    cases (acceptWrite_ready hready len).symm.trans ha
    cases (acceptWrite_ready hready' len).symm.trans ha'
    obtain ⟨u, hu, -⟩ := microRun_answers (accepted_bounds sd len s) hk
    obtain ⟨u', hu', -⟩ := microRun_answers (accepted_bounds sd' len s') hk
    have hsame := iterate_sameWrite (accepted_sameWrite hcfg hwin hacc len) k
    rw [← microRun_eq_iterate hu, ← microRun_eq_iterate hu'] at hsame
    obtain ⟨-, -, -, hph, rfl, rfl, haccs, -⟩ := hsame
    exact ⟨u, u', hu, hu', hph, haccs⟩

end Sys2Proof.Machine

/-! ## FINISH and its digest (44_finish.md R180 to R182) -/

namespace Sys2Proof.Machine

/-! ### The command: its word, its checks, and its response (R180) -/

/-- On a slot that is ready FINISH completes, and the response is its only change. -/
theorem exec_finish_ready {sd : Slot} {s : State} (h : Ready sd s) :
    exec (.finish sd) s = .next (respond .ok (mix s.cfg.mult (getAcc sd s)) s) :=
  exec_ready (i := .finish sd) nofun h

theorem exec_finish_rsp {sd : Slot} {s t : State} (h : Ready sd s) (ht : exec (.finish sd) s = .next t) :
    t.rsp = ⟨.ok, mix s.cfg.mult (getAcc sd s)⟩ := by
  rw [exec_finish_ready h] at ht
  cases ht
  rfl

/-- Settles O22: the word is read by its fields, the checks are those of every command on a session, and the examples are
evaluated. -/
theorem finishReturnsTheDigest : Obligations.FinishReturnsTheDigest :=
  ⟨decode_cwOf (op := .finish) (by decide), fun _ sd => exec_illegal (i := .finish sd),
    fun _ sd hrange => exec_notLive (i := .finish sd) hrange rfl, fun _ _ => exec_finish_ready,
    by decide, by decide, mix_zero⟩

/-! ### What a response depends on (R182, R192) -/

section
variable {i : Instr} {s s' t t' : State} (h : exec i s = .next t) (h' : exec i s' = .next t') (hcfg : s'.cfg = s.cfg)
  (hlive : ∀ n, i.needs = some n → isLive n s' = isLive n s)
include h h' hcfg hlive

/-- The status depends on the parameters and on the flag of the slot needed alone. -/
theorem exec_status_congr : t'.rsp.status = t.rsp.status := by
  rcases exec_next_cases h with ⟨hwf, rfl⟩ | ⟨hwf, ⟨n, hneed, hdead⟩, rfl⟩ | ⟨hwf, hmet, rfl⟩ <;> rw [← hcfg] at hwf
  · rw [exec_illegal hwf, raise_next] at h'
    exact congrArg (·.rsp.status) h'
  · rw [exec_notLive hwf hneed ((hlive n hneed).trans hdead), raise_next] at h'
    exact congrArg (·.rsp.status) h'
  · rw [exec_effect hwf fun n hneed => (hlive n hneed).trans (hmet n hneed)] at h'
    cases h'
    rw [effect_status, effect_status]

/-- A response depends on an accumulator only where it is the digest of a FINISH that succeeds. -/
theorem exec_rsp_congr
    (hacc : i.opcode = .finish → t.rsp.status = .ok → getAcc i.dest s' = getAcc i.dest s) : t'.rsp = t.rsp := by
  have hstatus := exec_status_congr h h' hcfg hlive
  have hdata : t'.rsp.data = t.rsp.data := by
    rw [exec_data h, exec_data h', hstatus, hcfg]
    split_ifs with hdigest
    · rw [hacc hdigest.1 hdigest.2]
    · rfl
  calc t'.rsp
    _ = ⟨t'.rsp.status, t'.rsp.data⟩ := rfl
    _ = ⟨t.rsp.status, t.rsp.data⟩ := by rw [hstatus, hdata]

end

/-! ### The session goes on (R181) -/

/-- A command goes as if the response before it were another. -/
theorem exec_respond (i : Instr) (st : Status) (d : Word) (s : State) : exec i (respond st d s) = exec i s :=
  exec_ignores_response i s ⟨st, d⟩ true

/-- Whatever FINISH answers, the response is its only change. -/
theorem exec_finish_respond {sd : Slot} {s t : State} (h : exec (.finish sd) s = .next t) :
    ∃ st d, t = respond st d s := by
  rcases exec_next_fault_or_effect h with ⟨st, -, rfl⟩ | ⟨-, rfl⟩
  · exact ⟨st, 0, rfl⟩
  · exact ⟨.ok, mix s.cfg.mult (getAcc sd s), rfl⟩

/-- A sequence of commands answers, and keeps what each command keeps. -/
theorem runCommands_keeps {P : State → Prop}
    (hstep : ∀ (i : Instr) (m : Memory) (s t : State), P s → exec i (withWindow m s) = .next t → P t)
    (cs : List (Instr × Memory)) {s : State} (hs : P s) : ∃ t, runCommands cs s = .next t ∧ P t := by
  induction cs generalizing s with
  | nil => exact ⟨s, rfl, hs⟩
  | cons c cs ih =>
    obtain ⟨t, ht⟩ := exec_answers c.1 (withWindow c.2 s)
    rw [runCommands_cons ht]
    exact ih (hstep c.1 c.2 s t hs ht)

theorem runCommands_keeps_cfg (cs : List (Instr × Memory)) (s : State) :
    ∃ t, runCommands cs s = .next t ∧ t.cfg = s.cfg :=
  runCommands_keeps (P := fun u => u.cfg = s.cfg) (fun _ _ _ _ hu h => (exec_frame h).cfg.trans hu) cs rfl

/-- No sequence of commands closes a session (R22). -/
theorem runCommands_keeps_live (cs : List (Instr × Memory)) {j : Slot} {s : State} (hs : isLive j s = true) :
    ∃ t, runCommands cs s = .next t ∧ isLive j t = true :=
  runCommands_keeps (P := fun u => isLive j u = true)
    (fun i m u v hu h => (onlyInitAndCopyMakeSlotsLive i (withWindow m u) v j h).1 hu) cs hs

/-- FINISH answers the same before and after commands on other slots: they keep its slot, and it looks at nothing else. -/
theorem exec_finish_after_run {cs : List (Instr × Memory)} {sd : Slot} {s t : State} (hcs : ∀ c ∈ cs, c.1.dest ≠ sd)
    (h : exec (.finish sd) s = .next t) :
    ∃ u v, runCommands cs s = .next u ∧ exec (.finish sd) u = .next v ∧ v.rsp = t.rsp := by
  obtain ⟨u, hu, hcfg⟩ := runCommands_keeps_cfg cs s
  obtain ⟨v, hv⟩ := exec_answers (.finish sd) u
  obtain ⟨hacc, hlive⟩ := runCommands_keeps_slot hcs hu
  refine ⟨u, v, hu, hv, exec_rsp_congr h hv hcfg (fun n hneed => ?_) fun _ _ => hacc⟩
  cases hneed
  exact hlive

/-- Settles O23: FINISH changes the response alone, which no command reads. -/
theorem finishDoesNotEndTheSession : Obligations.FinishDoesNotEndTheSession := by
  intro s t sd h
  obtain ⟨st, d, rfl⟩ := exec_finish_respond h
  have hagain : exec (.finish sd) (respond st d s) = .next (respond st d s) := (exec_respond _ st d s).trans h
  exact ⟨hagain, fun i m => exec_respond i st d (withWindow m s), fun _ hcs => exec_finish_after_run hcs hagain,
    fun cs hlive => runCommands_keeps_live cs hlive⟩

/-! ### The digest and the accumulator (R182) -/

/-- Other accumulators in the slots change no status, and no response but a digest: neither check looks at an accumulator. -/
theorem exec_other_accumulators {i : Instr} {s t t' : State} {bank : Vector Word maxSlots} (h : exec i s = .next t)
    (h' : exec i { s with acc := bank } = .next t') :
    t'.rsp.status = t.rsp.status ∧ ((i.opcode ≠ .finish ∨ t.rsp.status ≠ .ok) → t'.rsp = t.rsp) := by
  refine ⟨exec_status_congr h h' rfl (fun _ _ => rfl), fun hother => ?_⟩
  refine exec_rsp_congr h h' rfl (fun _ _ => rfl) fun hfinish hok => ?_
  exact hother.elim (absurd hfinish) (absurd hok)

/-- Settles O24: MIX is a bijection for an odd multiplier, with the inverse of R92, and no other response depends on an
accumulator. -/
theorem digestDeterminesTheAccumulator : Obligations.DigestDeterminesTheAccumulator := by
  refine ⟨fun s t s' t' sd sd' hs hs' hcfg hodd ht ht' => ?_, fun s t sd minv hs hinv ht => ?_,
    fun i s t t' bank => exec_other_accumulators⟩
  · rw [exec_finish_rsp hs ht, exec_finish_rsp hs' ht', ← hcfg]
    simp [(mix_bijective hodd).injective.eq_iff]
  · rw [exec_finish_rsp hs ht]
    exact ⟨rfl, mixInverse_mix hinv _⟩

end Sys2Proof.Machine

/-! ## Faults: their causes, their effect and their order (60_exceptions.md R190 to R195) -/

namespace Sys2Proof.Machine

/-! ### Which command words are legal (R191) -/

/-- The codes 1 to 9 are those of the operations (R64, R66). -/
theorem exists_code_of_bounds {code : BitVec 4} (h : ¬(code.toNat = 0 ∨ 10 ≤ code.toNat)) :
    ∃ op : Opcode, code = op.code := by
  have hsome : (Opcode.ofCode code).isSome = true := by revert code; decide
  obtain ⟨op, hop⟩ := Option.isSome_iff_exists.1 hsome
  exact ⟨op, ofCode_eq_some_iff.1 hop⟩

/-- A command word is legal when none of the causes (a) to (e) is there. -/
theorem exists_decode_eq_ok_iff_no_cause {nsess : Nat} {w : Words} :
    (∃ i, decode nsess w = .ok i) ↔
      ¬((opField w.cw).toNat = 0 ∨ 10 ≤ (opField w.cw).toNat) ∧ rsvField w.cw = 0 ∧
        (opField w.cw ≠ 9 → ssField w.cw = 0) ∧ (sdField w.cw).val < nsess ∧
        (opField w.cw = 9 → (ssField w.cw).val < nsess) := by
  rw [exists_decode_eq_ok_iff]
  constructor
  · rintro ⟨op, ⟨hcode, hrsv, hsource⟩, ⟨hdest, hrange⟩⟩
    obtain ⟨hzero, hten⟩ := code_bounds op
    rw [hcode, ne_eq, code_eq_nine_iff]
    exact ⟨not_or.2 ⟨fun h => hzero (BitVec.eq_of_toNat_eq h), hten.not_ge⟩, hrsv, hsource, hdest, hrange⟩
  · rintro ⟨hbounds, hrsv, hsource, hdest, hrange⟩
    obtain ⟨op, hcode⟩ := exists_code_of_bounds hbounds
    rw [hcode, ne_eq, code_eq_nine_iff] at hsource
    rw [hcode, code_eq_nine_iff] at hrange
    exact ⟨op, ⟨hcode, hrsv, hsource⟩, hdest, hrange⟩

/-! ### The answers of a command that are faults (R190, R194, R195) -/

/-- A command that has its effect raises no fault. -/
theorem raise_ne_effect {st : Status} (h : st ≠ .ok) (i : Instr) (s : State) : raise st s ≠ .next (effect i s) := by
  intro e
  have hstatus := effect_status i s
  rw [raise_next.1 e] at hstatus
  exact h hstatus

/-- A command answers IllegalCommand exactly when it names a slot that the block lacks. -/
theorem exec_eq_raise_illegal_iff {i : Instr} {s : State} :
    exec i s = raise .illegalCommand s ↔ i.wf s.cfg.nsess = false := by
  refine ⟨fun h => ?_, exec_illegal⟩
  rcases exec_cases i s with ⟨hwf, -⟩ | ⟨-, -, e⟩ | ⟨-, -, e⟩
  · exact hwf
  · exact absurd (raise_inj (h.symm.trans e)) (by decide)
  · exact absurd (h.symm.trans e) (raise_ne_effect (by decide) i s)

/-- A legal command answers NotLive exactly when it needs a session and finds none (R192). -/
theorem exec_eq_raise_notLive_iff {i : Instr} {s : State} (hwf : i.wf s.cfg.nsess = true) :
    exec i s = raise .notLive s ↔ ∃ n, i.needs = some n ∧ isLive n s = false := by
  refine ⟨fun h => ?_, fun ⟨_, hneed, hdead⟩ => exec_notLive hwf hneed hdead⟩
  rcases exec_cases i s with ⟨hlack, -⟩ | ⟨-, hdead, -⟩ | ⟨-, -, e⟩
  · simp [hwf] at hlack
  · exact hdead
  · exact absurd (h.symm.trans e) (raise_ne_effect (by decide) i s)

/-- A command presented raises IllegalCommand exactly when its word decodes to nothing: what decodes names slots of the
block. -/
theorem transact_eq_raise_illegal_iff {c : Command} {s : State} :
    transact c s = raise .illegalCommand (openCommand c s) ↔ ¬∃ i, decode s.cfg.nsess c.words = .ok i := by
  constructor
  · rintro h ⟨i, hi⟩
    have hlack := exec_eq_raise_illegal_iff.1 ((transact_decoded hi).symm.trans h)
    obtain ⟨hwf, -⟩ := encodeOfDecodeKeepsReadBits _ _ _ hi
    simp [hwf] at hlack
  · exact fun h => transact_undecoded (not_exists.1 h)

/-- Settles O5: the words that raise IllegalCommand are those that do not decode, and these are the words with a cause. -/
theorem illegalCommandHasExactlyFiveCauses : Obligations.IllegalCommandHasExactlyFiveCauses := by
  intro s c
  have hss : c.words.cw.extractLsb' 4 4 = 0 ↔ ssField c.words.cw = 0 :=
    ⟨congrArg BitVec.toFin, congrArg BitVec.ofFin⟩
  rw [transact_eq_raise_illegal_iff, exists_decode_eq_ok_iff_no_cause, ne_eq (c.words.cw.extractLsb' 4 4), hss]
  simp only [rsvField, ← not_lt]
  tauto

/-- Settles O42: the response is there in each of the three answers of a command, and the effect answers OK. -/
theorem noOtherFaultExists : Obligations.NoOtherFaultExists := by
  refine ⟨fun i s => ?_, fun i s hwf hmet => ⟨effect i s, exec_effect hwf hmet, effect_status i s⟩⟩
  obtain ⟨t, ht⟩ := exec_answers i s
  exact ⟨t, ht, exec_rspValid ht⟩

/-- Every command but INIT and COPY needs the session of its destination (R192). -/
theorem needs_eq_dest {i : Instr} (hinit : i.opcode ≠ .init) (hcopy : i.opcode ≠ .copy) : i.needs = some i.dest := by
  cases i with
  | init sd key0 key1 => exact absurd rfl hinit
  | copy sd ss => exact absurd rfl hcopy
  | wu8 sd v | wu16 sd v | wu32 sd v | wu64 sd v | wu128 sd lo hi | write sd len | finish sd => rfl

/-- Settles O43: of the three answers of a legal command, NotLive is the one that a missing session gives. -/
theorem notLiveIsRaisedExactlyWithoutASession : Obligations.NotLiveIsRaisedExactlyWithoutASession :=
  ⟨fun _ _ => exec_eq_raise_notLive_iff, fun _ _ _ => rfl, fun _ _ => rfl, fun _ => needs_eq_dest⟩

/-! ### What a fault leaves (R193) -/

theorem eq_respond_of_raise_next {st : Status} {s t : State} (h : raise st s = .next t) : t = respond t.rsp.status 0 s := by
  cases raise_next.1 h
  rfl

/-- A command that does not answer OK changes the response alone. -/
theorem exec_fault {i : Instr} {s t : State} (h : exec i s = .next t) (hfault : t.rsp.status ≠ .ok) :
    t = respond t.rsp.status 0 s := by
  rcases exec_next_fault_or_effect h with ⟨st, -, rfl⟩ | ⟨-, rfl⟩
  · rfl
  · exact absurd (effect_status i s) hfault

/-- A WRITE that is answered at its acceptance was not accepted: the processor does not start (R151). -/
theorem acceptWrite_fault {sd : Slot} {len : Word} {s t : State} (hnone : s.rspValid = false)
    (h : acceptWrite sd len s = .next t) (hvalid : t.rspValid = true) : t = respond t.rsp.status 0 s := by
  rcases acceptWrite_cases sd len s with ⟨-, e⟩ | ⟨-, -, e⟩ | ⟨-, e⟩ <;> rw [e] at h
  · exact eq_respond_of_raise_next h
  · exact eq_respond_of_raise_next h
  · cases h
    simp [hnone] at hvalid

/-- A command taken by micro-steps whose response is a fault changes the response alone, once it is presented. -/
theorem startCommand_fault {c : Command} {s t : State} (h : startCommand c s = .next t) (hvalid : t.rspValid = true)
    (hfault : t.rsp.status ≠ .ok) : t = respond t.rsp.status 0 (openCommand c s) := by
  rcases startCommand_cases c s with ⟨-, e⟩ | ⟨sd, len, -, e⟩ | ⟨i, -, -, e⟩ <;> rw [e] at h
  · exact eq_respond_of_raise_next h
  · exact acceptWrite_fault rfl h hvalid
  · exact exec_fault h hfault

/-- Settles O44: a fault is a response to the state before; readiness does not look at the window or the response. -/
theorem faultsChangeNothingButTheResponse : Obligations.FaultsChangeNothingButTheResponse := by
  refine ⟨fun i s t => exec_fault, fun c s t h hvalid hfault => ?_⟩
  have ht := startCommand_fault h hvalid hfault
  exact ⟨ht, (congrArg cmdReady ht).trans rfl⟩

/-- Settles O45: neither the decoder nor the check of the slots looks at a flag, and both come first. -/
theorem legalityIsCheckedBeforeTheFlag : Obligations.LegalityIsCheckedBeforeTheFlag :=
  ⟨fun _ _ h => ⟨transact_undecoded h, startCommand_undecoded h⟩, fun _ _ => exec_illegal⟩

end Sys2Proof.Machine

/-! ## Reset, and the values that the spec leaves unspecified (70_reset_and_hazards.md R210, R211; 44_finish.md R183) -/

namespace Sys2Proof.Machine

/-! ### States that agree on their sessions -/

theorem sameSlot_of_sameSessions {s s' : State} {n : Slot} (hs : SameSessions s s') (hlive : isLive n s = true) :
    SameSlot n s s' :=
  ⟨hs.acc n hlive, hs.live n⟩

theorem withWindow_sameSessions {s s' : State} (hs : SameSessions s s') (m : Memory) :
    SameSessions (withWindow m s) (withWindow m s') :=
  ⟨hs.cfg, hs.live, hs.acc⟩

theorem respond_sameSessions {s s' : State} (hs : SameSessions s s') (st : Status) (d : Word) :
    SameSessions (respond st d s) (respond st d s') :=
  ⟨hs.cfg, hs.live, hs.acc⟩

/-! ### No command reads an unspecified value (R183, R210) -/

section
variable {i : Instr} {s s' : State}

/-- What a command leaves in its destination depends on the slot it needs alone: INIT and COPY discard the destination's old
value (R110, R114), and every other command needs the destination itself. -/
theorem effect_dest_sameSlot_of_needs (hcfg : s'.cfg = s.cfg) (hwin : s'.win = s.win)
    (hneeds : ∀ n, i.needs = some n → SameSlot n s s') : SameSlot i.dest (effect i s) (effect i s') := by
  cases i with
  | init sd key0 key1 => exact ⟨by simp [effect, Instr.dest], by simp [effect, Instr.dest]⟩
  | copy sd ss =>
    obtain ⟨hsource, -⟩ := hneeds ss rfl
    exact ⟨by simp [effect, Instr.dest, hsource], by simp [effect, Instr.dest]⟩
  | wu8 sd v | wu16 sd v | wu32 sd v | wu64 sd v | wu128 sd lo hi | write sd len | finish sd =>
    exact effect_sameSlot hcfg hwin (hneeds sd rfl) hneeds

/-- A command whose session is there keeps the agreement: it leaves the same session in its destination and the other slots
as they were. -/
theorem effect_sameSessions (hs : SameSessions s s') (hwin : s'.win = s.win) (hmet : NeedsMet i s) :
    SameSessions (effect i s) (effect i s') := by
  obtain ⟨hacc, hlive⟩ := effect_dest_sameSlot_of_needs hs.cfg hwin
    fun n hneed => sameSlot_of_sameSessions hs (hmet n hneed)
  refine ⟨?_, fun j => ?_, fun j hj => ?_⟩
  · rw [(effect_frame i s').cfg, (effect_frame i s).cfg, hs.cfg]
  · by_cases hdest : j = i.dest
    · rw [hdest, hlive]
    · rw [effect_isLive_other hdest, effect_isLive_other hdest, hs.live]
  · by_cases hdest : j = i.dest
    · rw [hdest, hacc]
    · rw [effect_isLive_other hdest] at hj
      rw [effect_getAcc_other hdest, effect_getAcc_other hdest, hs.acc j hj]

/-- Two states that agree on their sessions answer a command alike, with the same fault or both with its effect, and agree on
their sessions afterwards. The one accumulator that a response shows is that of a session. -/
theorem exec_sameSessions {t t' : State} (hs : SameSessions s s') (hwin : s'.win = s.win) (h : exec i s = .next t)
    (h' : exec i s' = .next t') : SameSessions t t' ∧ t'.rsp = t.rsp := by
  have hstatus := exec_status_congr h h' hs.cfg fun n _ => hs.live n
  rcases exec_next_fault_or_effect h with ⟨st, hfault, rfl⟩ | ⟨hmet, rfl⟩
  · have ht' := exec_fault h' (hstatus.trans_ne hfault)
    rw [ht', hstatus]
    exact ⟨respond_sameSessions hs st 0, rfl⟩
  · obtain rfl := exec_next_ok h' (hstatus.trans (effect_status i s))
    refine ⟨effect_sameSessions hs hwin hmet, exec_rsp_congr h h' hs.cfg (fun n _ => hs.live n) fun hfinish _ => ?_⟩
    have hneed : i.needs = some i.dest := needs_eq_dest (by simp [hfinish]) (by simp [hfinish])
    exact hs.acc i.dest (hmet i.dest hneed)

end

/-- Settles O52, by induction on the sequence: each command answers alike and hands on states that agree on their sessions. -/
theorem unspecifiedValuesNeverReachAResponse : Obligations.UnspecifiedValuesNeverReachAResponse := by
  intro cs
  induction cs with
  | nil => exact fun _ _ _ => rfl
  | cons c cs ih =>
    intro s s' hs
    obtain ⟨t, ht⟩ := exec_answers c.1 (withWindow c.2 s)
    obtain ⟨t', ht'⟩ := exec_answers c.1 (withWindow c.2 s')
    obtain ⟨hnext, hrsp⟩ := exec_sameSessions (withWindow_sameSessions hs c.2) rfl ht ht'
    rw [responses_cons ht, responses_cons ht', hrsp, ih t t' hnext]

/-! ### Reset (R210, R211) -/

theorem nothingLive_applyReset (s : State) : NothingLive (applyReset s) := fun j => isLive_applyReset j s

/-- Settles O55: a step takes the reset in every phase, no slot is live after it, and a legal command that needs a session
then finds none. -/
theorem resetLosesEverySessionAndAnyCommandInProgress : Obligations.ResetLosesEverySessionAndAnyCommandInProgress := by
  intro s rest h
  have hdead := nothingLive_applyReset { s with inputs := rest }
  exact ⟨_, step_reset h, hdead, rfl, rfl, rfl, rfl, rfl, rfl, fun i n hneed hwf => exec_notLive hwf hneed (hdead n)⟩

end Sys2Proof.Machine
